-- ==== Sys2Proof/Word.lean ====
section
/-! DEFINITION. The word types of the machine (spec/00_scope.md R4, R5). Every value is unsigned. -/

namespace Sys2Proof

/-- The contents of a general register: `XLEN` = 64 bits (R4, R10). -/
abbrev Word := BitVec 64

/-- One program word as stored: `PWORD_BITS` = 4 bits (R4, R32). -/
abbrev Nibble := BitVec 4

/-- One element of the output stream: `OUT_BITS` = 3 bits (R4, R16). -/
abbrev OutWord := BitVec 3

end Sys2Proof
end

