-- ==== Sys2Proof/Syntax.lean ====
section
/-! DEFINITION. The eight instructions, one constructor per row of spec/opcode_table.json: "a closed
tagged-variant type with exactly eight constructors" (spec/30_encoding.md R56). -/

namespace Sys2Proof

/-- A decoded instruction. `k` is a combo code, kept as the operand word and resolved only when the
instruction executes (R56, 40_step_cycle.md R63); `lit` is a literal operand word (R50). -/
inductive Instr where
  /-- opcode 0, R72: A <- shr64(A, combo k) -/
  | adv (k : Nibble)
  /-- opcode 1, R75: B <- B XOR literal -/
  | bxl (lit : Nibble)
  /-- opcode 2, R76: B <- combo k mod 8 -/
  | bst (k : Nibble)
  /-- opcode 3, R80: jump to the literal index when A is not zero -/
  | jnz (lit : Nibble)
  /-- opcode 4, R77: B <- B XOR C; its operand word is dropped by the decoder (R56) -/
  | bxc
  /-- opcode 5, R86: append combo k mod 8 to the output stream -/
  | out (k : Nibble)
  /-- opcode 6, R73: B <- shr64(A, combo k) -/
  | bdv (k : Nibble)
  /-- opcode 7, R74: C <- shr64(A, combo k) -/
  | cdv (k : Nibble)
deriving DecidableEq, Repr

end Sys2Proof
end

