-- ==== Sys2Proof/WellFormed.lean ====
section
/-! DEFINITION. Well-formed instructions (what the decoder can give: spec/30_encoding.md R52, R53, R56) and
well-formed programs (the spec's premise for claims: 00_scope.md glossary, 92_eei_decisions.md D31). The machine
does not require a well-formed program; it faults where the rules say. -/

namespace Sys2Proof

/-- A combo code is 0..6; 7 is invalid, and 8..15 have no entry in the combo table (R49, R52, R53). -/
def comboCodeOk (k : Nibble) : Bool := decide (k.toNat ≤ 6)

/-- An instruction the encoding admits: combo codes in 0..6; literals are any operand word (R50, R53 (b)). -/
def Instr.wellFormed : Instr → Bool
  | .adv k => comboCodeOk k
  | .bxl _ => true
  | .bst k => comboCodeOk k
  | .jnz _ => true
  | .bxc => true
  | .out k => comboCodeOk k
  | .bdv k => comboCodeOk k
  | .cdv k => comboCodeOk k

/-- The opcode words whose operand kind is combo: `Adv`, `Bst`, `Out`, `Bdv`, `Cdv` (R47). -/
def comboOpcode (opw : Nibble) : Bool := [0, 2, 5, 6, 7].contains opw.toNat

/-- One pair of a well-formed program of `len` words (D31): both words in 0..7, no combo operand 7, a `Jnz`
operand even and below `len`. -/
def pairWellFormed (len : Nat) (opw opd : Nibble) : Bool :=
  decide (opw.toNat ≤ 7) && decide (opd.toNat ≤ 7) && (!comboOpcode opw || comboCodeOk opd)
    && (opw.toNat != 3 || (opd.toNat % 2 == 0 && decide (opd.toNat < len)))

/-- Every pair of the list is well-formed and no word is left over. -/
def pairsWellFormed (len : Nat) : List Nibble → Bool
  | [] => true
  | [_] => false
  | opw :: opd :: rest => pairWellFormed len opw opd && pairsWellFormed len rest

/-- A well-formed program (00_scope.md glossary, D31), its words in index order. -/
def programWellFormed (words : List Nibble) : Bool := pairsWellFormed words.length words

end Sys2Proof
end

