-- ==== Sys2Proof/Decode.lean ====
section
/-! DEFINITION. The decoder of spec/30_encoding.md R56, total on every pair of program words, and the encoder
written from the same map (R47). -/

namespace Sys2Proof

/-- The two ways decoding fails (R51, R52, R53). Taken by the step as the fault of the same name. -/
inductive DecodeError where
  /-- the opcode word is above 7 (R51) -/
  | invalidOpcode
  /-- the operand kind is combo and the operand word is 7 or above (R52, R53 (a)) -/
  | invalidCombo
deriving DecidableEq, Repr

/-- A combo operand is checked at decode and kept as a code (R52, R53 (a), R56). -/
def withComboCode (opd : Nibble) (mk : Nibble → Instr) : Except DecodeError Instr :=
  if comboCodeOk opd then .ok (mk opd) else .error .invalidCombo

/-- R56: `decode(opw, opd)`. The opcode is looked at first, so a pair such as [9,7] is `invalidOpcode` (R51). -/
def decode (opw opd : Nibble) : Except DecodeError Instr :=
  match opw.toNat with
  | 0 => withComboCode opd .adv
  | 1 => .ok (.bxl opd)
  | 2 => withComboCode opd .bst
  | 3 => .ok (.jnz opd)
  | 4 => .ok .bxc
  | 5 => withComboCode opd .out
  | 6 => withComboCode opd .bdv
  | 7 => withComboCode opd .cdv
  | _ => .error .invalidOpcode

/-- The words of an instruction, opcode word then operand word (R45, R47). `Bxc` ignores its operand word;
the encoder writes 0 there (DESIGN CHOICE, notes/assumptions/17.md). -/
def encode : Instr → Nibble × Nibble
  | .adv k => (0, k)
  | .bxl lit => (1, lit)
  | .bst k => (2, k)
  | .jnz lit => (3, lit)
  | .bxc => (4, 0)
  | .out k => (5, k)
  | .bdv k => (6, k)
  | .cdv k => (7, k)

/-- The two program words of the 8-bit view `pair = opw * 16 + opd` (R46), which is how spec/opcode_table.json
numbers an instruction's bits: opcode word in bits 7..4, operand word in bits 3..0
(DEDUCED, notes/assumptions/9.md). Only the low `nbits` bits count. -/
def pairOfTableWord (nbits w : Nat) : Nibble × Nibble :=
  (BitVec.ofNat 4 (w % 2 ^ nbits / 16), BitVec.ofNat 4 (w % 2 ^ nbits))

/-- The instruction the decoder reads from a row's bits, numbered as the table numbers them. -/
def decodeTableWord (nbits w : Nat) : Option Instr :=
  match decode (pairOfTableWord nbits w).1 (pairOfTableWord nbits w).2 with
  | .ok i => some i
  | .error _ => none

end Sys2Proof
end

