-- ==== Sys2Proof/Machine/State.lean ====
section
/-! DEFINITION. Everything spec/10_state.md gives one instance, as plain data, the reasons a step can stop, and
the state after reset (R22). -/

namespace Sys2Proof.Machine

/-- The three general registers, the whole register file (R10, R12). -/
inductive Reg where
  | a
  | b
  | c
deriving DecidableEq, Repr

/-- `STATUS` (R18). -/
inductive Status where
  /-- code 0: no run in progress, no result held -/
  | idle
  /-- code 1: the sequencer takes steps -/
  | running
  /-- code 2: the run ended because pc >= LEN -/
  | halted
  /-- code 3: the run ended by one of the four conditions -/
  | faulted
deriving DecidableEq, Repr

/-- The four failure conditions (spec/60_exceptions.md R90). -/
inductive Condition where
  /-- code 1 (R91) -/
  | invalidOpcode
  /-- code 2 (R92) -/
  | invalidCombo
  /-- code 3 (R93) -/
  | jumpOutOfRange
  /-- code 4 (R94) -/
  | fuelExhausted
deriving DecidableEq, Repr

/-- Why the model stops. The four conditions of R90 are no stops: they lead to a next state (R96). -/
inductive Fault where
  /-- Raised by the fetch of the step when pc < LEN and the program space holds no word at pc or pc + 1
  (spec/20_memory.md R34: "a fetch never reads outside the program", R37). No run reaches such a state. SAFE:
  the model stops where the spec gives no word (notes/assumptions/2.md, 19.md). -/
  | noProgramWord
deriving DecidableEq, Repr

/-- Why the model gives no meaning. -/
inductive Refusal where
  /-- An arm of `exec` without a meaning would raise it, by the instruction's mnemonic. No arm does. SAFE. -/
  | notModelled (mnemonic : String)
deriving DecidableEq, Repr

/-- The program space: the words it holds, as (index, word) pairs with strictly rising indices
(`Memory.wf`, Machine/Ops.lean). An index that is not listed reads as no value (notes/assumptions/2.md), so no
entry can equal what an unlisted index reads as. The addressable unit is the 4-bit word (spec/20_memory.md R32). -/
abbrev Memory := List (Nat × Nibble)

/-- The state of one instance (R10 to R22). -/
structure State where
  /-- general register A, x[0] (R10) -/
  a : Word
  /-- general register B, x[1] (R10) -/
  b : Word
  /-- general register C, x[2] (R10) -/
  c : Word
  /-- program counter: an index into the program in words (R13) -/
  pc : Nat
  /-- output stream buffer, oldest element first (R16) -/
  out : List OutWord
  /-- fuel counter: the instructions still allowed (R17) -/
  fuel : Nat
  /-- `STATUS` (R18) -/
  status : Status
  /-- `CAUSE`; `none` is code 0 (R19) -/
  cause : Option Condition
  /-- the program memory, written only by LOAD (R24, 20_memory.md R31) -/
  prog : Memory
  /-- `LEN`, the program's length in words, written only by LOAD (R24) -/
  len : Nat
  /-- `FUEL`, the run's budget: taken by LOAD, copied to `fuel` by START (R24, R25) -/
  fuelBudget : Nat
  /-- whether a LOAD has been accepted since the last reset (R25) -/
  loaded : Bool
deriving DecidableEq, Repr

/-- The state right after reset (R22, 70_reset_and_hazards.md R110). The spec gives A, B, C, the program memory and
`LEN` no value there, and names none for `FUEL`: those values are DESIGN CHOICE (notes/assumptions/1.md to 4.md). -/
def State.reset : State where
  a := 0
  b := 0
  c := 0
  pc := 0
  out := []
  fuel := 0
  status := .idle
  cause := none
  prog := []
  len := 0
  fuelBudget := 0
  loaded := false

end Sys2Proof.Machine
end

