-- ==== Sys2Proof/Machine/Ops.lean ====
section
/-! DEFINITION. The named operations over the program space, the registers, the output stream and the sequencer's
own registers, and fault entry. -/

namespace Sys2Proof.Machine

/-! ### The program space (spec/20_memory.md) -/

/-- The canonical form of a program memory: strictly rising indices. -/
abbrev Memory.wf (m : Memory) : Prop := List.Pairwise (fun x y => x.1 < y.1) m

/-- The word held at index `i`; an index that is not listed holds no value. -/
def Memory.read : Memory → Nat → Option Nibble
  | [], _ => none
  | (j, w) :: m, i => if j = i then some w else Memory.read m i

/-- Write one word, keeping the indices rising. -/
def Memory.write : Memory → Nat → Nibble → Memory
  | [], i, w => [(i, w)]
  | (j, v) :: m, i, w =>
    if i < j then (i, w) :: (j, v) :: m
    else if i = j then (i, w) :: m
    else (j, v) :: Memory.write m i w

/-- A program's words at indices `i`, `i + 1`, … -/
def Memory.ofWordsFrom : Nat → List Nibble → Memory
  | _, [] => []
  | i, w :: ws => (i, w) :: Memory.ofWordsFrom (i + 1) ws

/-- The program space right after a LOAD: `prog[i] <- words[i]` for every i (10_state.md R24). -/
def Memory.ofWords (words : List Nibble) : Memory := Memory.ofWordsFrom 0 words

/-- `prog[i]`. Indices `LEN` and above hold nothing (R37). -/
def State.progWord (s : State) (i : Nat) : Option Nibble :=
  if i < s.len then s.prog.read i else none

/-- Instruction fetch `MemRead(pc, 2)`: the opcode word at `pc`, the operand word at `pc + 1` (R33, R34). -/
def State.fetch (s : State) : Option (Nibble × Nibble) :=
  match s.progWord s.pc, s.progWord (s.pc + 1) with
  | some opw, some opd => some (opw, opd)
  | _, _ => none

/-! ### Registers (10_state.md R10 to R12) -/

/-- `x[r]`: no register is hardwired (R12). -/
def State.reg (s : State) : Reg → Word
  | .a => s.a
  | .b => s.b
  | .c => s.c

/-- `x[r] <- v`. -/
def State.setReg (s : State) (r : Reg) (v : Word) : State :=
  match r with
  | .a => { s with a := v }
  | .b => { s with b := v }
  | .c => { s with c := v }

/-! ### Output stream, program counter, fuel (10_state.md R14, R16, R17) -/

/-- `OutAppend(d)`: after the current last element (R16). -/
def State.outAppend (s : State) (d : OutWord) : State := { s with out := s.out ++ [d] }

/-- The part of the commit that every executed instruction has: one unit of fuel and the one update of `pc`
(40_step_cycle.md R60 point 6, R65, R66). That `fuel` is not 0 is the step's check (R60 point 2). -/
def State.retireAt (s : State) (target : Nat) : State := { s with fuel := s.fuel - 1, pc := target }

/-- The commit of an instruction that falls through: `pc <- pc + 2` (R65). -/
def State.retire (s : State) : State := s.retireAt (s.pc + 2)

/-! ### The end of a run (60_exceptions.md R96, 43_control.md R82) -/

/-- Fault entry, `raise X` (R96): `CAUSE <- X`, `STATUS <- FAULTED`, and nothing else. There is no vector, no saved
pc and no mode. There is no return from it either (R98): the only exits are the host's LOAD and RESET
(Machine/HostPort.lean). -/
def State.raise (s : State) (x : Condition) : State := { s with status := .faulted, cause := some x }

/-- The condition a decode error raises (R91, R92). -/
def conditionOf : DecodeError → Condition
  | .invalidOpcode => .invalidOpcode
  | .invalidCombo => .invalidCombo

/-- The halt step: `STATUS <- HALTED` and nothing else (R82). -/
def State.halt (s : State) : State := { s with status := .halted }

/-! ### A program placed from outside -/

/-- The pair stored at `pc` and a run of it under way: what the very next step needs in order to fetch and run it
(notes/assumptions/10.md). -/
def State.withPair (s : State) (opw opd : Nibble) : State :=
  { s with
    prog := (s.prog.write s.pc opw).write (s.pc + 1) opd
    len := max s.len (s.pc + 2)
    fuel := max s.fuel 1
    fuelBudget := max s.fuelBudget (max s.fuel 1)
    status := .running
    cause := none
    loaded := true }

end Sys2Proof.Machine
end

