-- ==== Sys2Proof/Machine/Operands.lean ====
section
/-! DEFINITION. The operand kinds (spec/30_encoding.md R49, R50; 40_step_cycle.md R63) and the functions of the ALU
(41_shift_divide.md R70; 42_bitwise.md R76, R78, R79). -/

namespace Sys2Proof.Machine

/-! ### Operands -/

/-- A literal operand as a register value, zero-extended and used as it is (R50). -/
def literal (opd : Nibble) : Word := opd.setWidth 64

/-- A literal operand as an absolute program index in words (R50, 43_control.md R80). -/
def jumpTarget (opd : Nibble) : Nat := opd.toNat

/-- R63: the value of a combo operand, read from the live registers. There is no value for 7 and above. -/
def combo (k : Nibble) (s : State) : Option Word :=
  match k.toNat with
  | 0 => some 0
  | 1 => some 1
  | 2 => some 2
  | 3 => some 3
  | 4 => some (s.reg .a)
  | 5 => some (s.reg .b)
  | 6 => some (s.reg .c)
  | _ => none

/-- An instruction with a combo operand: `f` of the operand's value is the next state. A code without a value is the
condition `InvalidCombo` (60_exceptions.md R92), with no effect of the instruction; the decoder never gives one
(notes/assumptions/18.md). -/
def withCombo (k : Nibble) (s : State) (f : Word → State) : Host.Outcome State Fault Refusal :=
  match combo k s with
  | some v => .next (f v)
  | none => .next (s.raise .invalidCombo)

/-! ### The ALU -/

/-- R70: logical right shift of `v` by any 64-bit amount, `floor(v / 2^s)`; 0 from 64 on. -/
def shr64 (v s : Word) : Word := if s.toNat < 64 then v >>> s.toNat else 0

/-- `v mod 8 = v[2:0]`, an output digit (R5, R86). -/
def mod8 (v : Word) : OutWord := v.setWidth 3

end Sys2Proof.Machine
end

