-- ==== Sys2Proof/Machine/Bitwise.lean ====
section
/-! DEFINITION. `Bxl`, `Bst`, `Bxc` (spec/42_bitwise.md): all three write B and nothing else. -/

namespace Sys2Proof.Machine

/-- R75 -/
def execBxl (lit : Nibble) (s : State) : Host.Outcome State Fault Refusal :=
  .next (s.setReg .b (s.reg .b ^^^ literal lit)).retire

/-- R76: bits 63..3 of B become 0. -/
def execBst (k : Nibble) (s : State) : Host.Outcome State Fault Refusal :=
  withCombo k s fun v => (s.setReg .b ((mod8 v).setWidth 64)).retire

/-- R77: the operand word has no part in it. -/
def execBxc (s : State) : Host.Outcome State Fault Refusal :=
  .next (s.setReg .b (s.reg .b ^^^ s.reg .c)).retire

end Sys2Proof.Machine
end

