-- ==== Sys2Proof/Machine/Flags.lean ====
section
/-! DEFINITION. The machine has no status flags, condition codes or predicate registers (spec/10_state.md R15), so no
instruction computes one. The only condition is the test of `Jnz` on A itself, and the check of its target. -/

namespace Sys2Proof.Machine

/-- The condition of `Jnz`: A, all 64 bits, is not zero at the moment it executes (R15, 43_control.md R80). -/
def jumpTaken (s : State) : Bool := s.reg .a != 0

/-- R81: a taken jump is legal exactly when its target is even and below `LEN`. -/
def jumpLegal (s : State) (target : Nat) : Bool := target % 2 == 0 && decide (target < s.len)

end Sys2Proof.Machine
end

