-- ==== Sys2Proof/Machine/Control.lean ====
section
/-! DEFINITION. `Jnz` (spec/43_control.md), the only control transfer (R83). -/

namespace Sys2Proof.Machine

/-- R80: the target is examined only when the jump is taken; an illegal one raises `JumpOutOfRange` and changes
nothing else. -/
def execJnz (lit : Nibble) (s : State) : Host.Outcome State Fault Refusal :=
  if jumpTaken s then
    if jumpLegal s (jumpTarget lit) then .next (s.retireAt (jumpTarget lit))
    else .next (s.raise .jumpOutOfRange)
  else .next s.retire

end Sys2Proof.Machine
end

