-- ==== Sys2Proof/Machine/Output.lean ====
section
/-! DEFINITION. `Out` (spec/44_output.md), the only instruction that changes the output stream. -/

namespace Sys2Proof.Machine

/-- R86 -/
def execOut (k : Nibble) (s : State) : Host.Outcome State Fault Refusal :=
  withCombo k s fun v => (s.outAppend (mod8 v)).retire

end Sys2Proof.Machine
end

