-- ==== Sys2Proof/Machine/ShiftDivide.lean ====
section
/-! DEFINITION. `Adv`, `Bdv`, `Cdv` (spec/41_shift_divide.md): A shifted right by the combo value, into A, B or C. -/

namespace Sys2Proof.Machine

/-- The family's one operation: `x[dst] <- shr64(A, combo k)`; the reads come before the write (R64). -/
def shiftInto (dst : Reg) (k : Nibble) (s : State) : Host.Outcome State Fault Refusal :=
  withCombo k s fun v => (s.setReg dst (shr64 (s.reg .a) v)).retire

/-- R72 -/
def execAdv (k : Nibble) (s : State) : Host.Outcome State Fault Refusal := shiftInto .a k s

/-- R73 -/
def execBdv (k : Nibble) (s : State) : Host.Outcome State Fault Refusal := shiftInto .b k s

/-- R74 -/
def execCdv (k : Nibble) (s : State) : Host.Outcome State Fault Refusal := shiftInto .c k s

end Sys2Proof.Machine
end

