-- ==== Sys2Proof/Machine/Cycle.lean ====
section
/-! DEFINITION. The fetch-decode-execute step (spec/40_step_cycle.md R60), in its order of checks (R95). -/

namespace Sys2Proof.Machine

/-- Points 3 to 6 of R60: fetch, decode, execute. -/
def runPair (s : State) : Host.Outcome State Fault Refusal :=
  match s.fetch with
  | none => .fault .noProgramWord
  | some (opw, opd) =>
    match decode opw opd with
    | .error e => .next (s.raise (conditionOf e))
    | .ok i => exec i s

/-- One step of a running instance: halt, then fuel, then the pair at `pc` (R60). -/
def runningStep (s : State) : Host.Outcome State Fault Refusal :=
  if s.len ≤ s.pc then .next s.halt
  else if s.fuel = 0 then .next (s.raise .fuelExhausted)
  else runPair s

/-- R60: "in any other status the sequencer does nothing"; an instance that is not RUNNING holds its state
(60_exceptions.md R108; notes/assumptions/8.md). -/
def cycle (s : State) : Host.Outcome State Fault Refusal :=
  match s.status with
  | .running => runningStep s
  | .idle => .next s
  | .halted => .next s
  | .faulted => .next s

end Sys2Proof.Machine
end

