-- ==== Sys2Proof/Machine/Step.lean ====
section
/-! DEFINITION. The step of the machine, and an instruction placed where it fetches next. -/

namespace Sys2Proof.Machine

/-- One step of the sequencer (spec/40_step_cycle.md R60). -/
def step (s : State) : Host.Outcome State Fault Refusal := cycle s

/-- `s` with the table's word `w` as the pair at `pc` and a run of it under way, so that the very next step runs it.
It stands for LOAD and START (notes/assumptions/10.md). -/
def State.withFetchWord (s : State) (nbits w : Nat) : State :=
  s.withPair (pairOfTableWord nbits w).1 (pairOfTableWord nbits w).2

end Sys2Proof.Machine
end

