-- ==== Sys2Proof/Config.lean ====
section
/-! DEFINITION. The parameters that spec/00_scope.md R4 leaves OPEN. "A row marked OPEN is an argument of the
model": a value of `Params` is an argument of the host's transactions (Machine/HostPort.lean), the only place
where the parameters decide anything. The sequencer needs none of them, because LOAD keeps every run inside
them (10_state.md R14, R16; notes/assumptions/6.md and 7.md). -/

namespace Sys2Proof

/-- The OPEN parameters of one hardware instance (R4; 92_eei_decisions.md D15, D16, D21). -/
structure Params where
  /-- `PC_BITS`, the width of the program counter. -/
  pcBits : Nat
  /-- R4: `PC_BITS` is at least 4, so that every literal jump target can be held. -/
  pcBits_ge : 4 ≤ pcBits
  /-- `OUT_CAP`, the capacity of the output stream buffer in elements. -/
  outCap : Nat
  /-- `FUEL_BITS`, the width of the fuel counter. -/
  fuelBits : Nat
deriving DecidableEq, Repr

end Sys2Proof
end

