-- ==== Sys2Proof/Machine/HostPort.lean ====
section
/-! DEFINITION. The host's four atomic transactions LOAD, START, READBACK, RESET (spec/10_state.md R24 to R28) and the
result of a run (40_step_cycle.md R69). They act between steps; while STATUS is RUNNING only RESET is accepted (R27). -/

namespace Sys2Proof.Machine

/-- What a transaction answers: whether it was accepted, and the state after it. -/
structure HostReply where
  accepted : Bool
  state : State
deriving DecidableEq, Repr

/-- "refused (no effect)" (R24, R25). -/
def refuse (s : State) : HostReply where
  accepted := false
  state := s

/-! ### Codes (R18, R19) -/

/-- The 2-bit code of `STATUS` (R18). -/
def statusCode : Status → BitVec 2
  | .idle => 0
  | .running => 1
  | .halted => 2
  | .faulted => 3

/-- The 3-bit code of `CAUSE`; 5, 6 and 7 are never produced (R19). -/
def causeCode : Option Condition → BitVec 3
  | none => 0
  | some .invalidOpcode => 1
  | some .invalidCombo => 2
  | some .jumpOutOfRange => 3
  | some .fuelExhausted => 4

/-! ### LOAD (R24) -/

/-- The arguments of LOAD as the host hands them over: natural numbers that the loader checks. -/
structure LoadArgs where
  a : Nat
  b : Nat
  c : Nat
  words : List Nat
  fuel : Nat
deriving DecidableEq, Repr

/-- `LEN_MAX = 2^PC_BITS - 2` (00_scope.md R4). -/
def lenMax (p : Params) : Nat := 2 ^ p.pcBits - 2

/-- The loader's preconditions on the arguments (R24; 92_eei_decisions.md D14, D16, D20). -/
def loadArgsOk (p : Params) (x : LoadArgs) : Bool :=
  decide (x.a < 2 ^ 64) && decide (x.b < 2 ^ 64) && decide (x.c < 2 ^ 64)
    && x.words.length % 2 == 0 && decide (x.words.length ≤ lenMax p) && x.words.all (fun w => decide (w < 16))
    && decide (x.fuel < 2 ^ p.fuelBits) && decide (x.fuel ≤ p.outCap)

/-- The state an accepted LOAD leaves: every field is written, so nothing of an earlier run survives (R24, R113). -/
def loadedState (x : LoadArgs) : State where
  a := BitVec.ofNat 64 x.a
  b := BitVec.ofNat 64 x.b
  c := BitVec.ofNat 64 x.c
  pc := 0
  out := []
  fuel := 0
  status := .idle
  cause := none
  prog := Memory.ofWords (x.words.map (BitVec.ofNat 4))
  len := x.words.length
  fuelBudget := x.fuel
  loaded := true

/-- LOAD: accepted when not RUNNING and every precondition holds; refused as a whole otherwise (R24). -/
def load (p : Params) (x : LoadArgs) (s : State) : HostReply :=
  if s.status ≠ .running ∧ loadArgsOk p x = true then { accepted := true, state := loadedState x } else refuse s

/-! ### START (R25) -/

/-- The state an accepted START leaves; A, B, C keep the loaded values. -/
def startedState (s : State) : State :=
  { s with pc := 0, out := [], fuel := s.fuelBudget, cause := none, status := .running }

/-- START: accepted only in IDLE, after a LOAD since the last reset (R25). -/
def start (s : State) : HostReply :=
  if s.status = .idle ∧ s.loaded = true then { accepted := true, state := startedState s } else refuse s

/-! ### RESET (R28) -/

/-- RESET: accepted in any status; the values of R22. A, B, C, the program and `LEN` are unspecified there; the model
takes those of `State.reset` (notes/assumptions/20.md). -/
def hostReset (_ : State) : HostReply where
  accepted := true
  state := State.reset

/-! ### READBACK (R26) -/

/-- What READBACK returns. A, B, C are absent before the first LOAD after reset, where the spec gives a read of them
no value (R22, R26; 93_implementation_defined.md U2). -/
structure Readback where
  status : BitVec 2
  cause : BitVec 3
  a : Option Word
  b : Option Word
  c : Option Word
  pc : Nat
  fuel : Nat
  outLength : Nat
  out : List OutWord
deriving DecidableEq, Repr

/-- The value of a register as READBACK sees it. -/
def readbackReg (s : State) (r : Reg) : Option Word := if s.loaded then some (s.reg r) else none

/-- READBACK: refused while RUNNING (R26, R27); it changes nothing. -/
def readback (s : State) : Option Readback :=
  if s.status = .running then none
  else some
    { status := statusCode s.status
      cause := causeCode s.cause
      a := readbackReg s .a
      b := readbackReg s .b
      c := readbackReg s .c
      pc := s.pc
      fuel := s.fuel
      outLength := s.out.length
      out := s.out }

/-! ### The transactions together -/

/-- One host transaction (R24 to R28). -/
inductive Transaction where
  | load (x : LoadArgs)
  | start
  | readback
  | reset
deriving DecidableEq, Repr

/-- What a transaction does to the state. READBACK is accepted when it returns values, and changes nothing. -/
def transact (p : Params) (t : Transaction) (s : State) : HostReply :=
  match t with
  | .load x => load p x s
  | .start => start s
  | .readback => { accepted := (readback s).isSome, state := s }
  | .reset => hostReset s

/-! ### The result of a run (40_step_cycle.md R69, 60_exceptions.md R97) -/

/-- What a run gives: the output sequence with the final registers when it HALTED; the condition alone, and no output
sequence, when it FAULTED (R97). -/
inductive RunResult where
  | halted (a b c : Word) (out : List OutWord)
  | faulted (x : Condition)
deriving DecidableEq, Repr

/-- The result, if the run has ended: RUNNING is never final (R69). -/
def runResult (s : State) : Option RunResult :=
  match s.status with
  | .halted => some (.halted s.a s.b s.c s.out)
  | .faulted => s.cause.map .faulted
  | .idle => none
  | .running => none

end Sys2Proof.Machine
end

