-- ==== Sys2Proof/Safety.lean ====
section
/-! DEFINITION. The terms in which claims speak of a safe machine: the invariant of spec/10_state.md R23 (with R19 and
R22), the states that steps and host transactions reach, and the register table of R11. -/

namespace Sys2Proof.Machine

/-- The invariant of an instance at any time. Its clauses are those of R23, widened to the states before a run
and after it. -/
structure State.Inv (s : State) : Prop where
  /-- the program memory is in its canonical form -/
  progCanonical : s.prog.wf
  /-- every word of the program is there (R34, R37) -/
  progMapped : ∀ i, i < s.len → (s.prog.read i).isSome = true
  /-- nothing is mapped from `LEN` on (R37) -/
  progBounded : ∀ x ∈ s.prog, x.1 < s.len
  /-- R4, R24: the program's length is even -/
  lenEven : s.len % 2 = 0
  /-- R14, R23: `pc` is even -/
  pcEven : s.pc % 2 = 0
  /-- R23: `pc <= LEN` -/
  pcBound : s.pc ≤ s.len
  /-- R23: `|out| <= FUEL - fuel` and `fuel <= FUEL` -/
  outBound : s.out.length + s.fuel ≤ s.fuelBudget
  /-- R19: `CAUSE != 0` exactly when `STATUS = FAULTED` -/
  causeFaulted : s.cause ≠ none ↔ s.status = .faulted
  /-- R69: a halted run ended at `pc = LEN` -/
  haltedAtEnd : s.status = .halted → s.pc = s.len
  /-- R25: a run needs a LOAD -/
  ranLoaded : s.status ≠ .idle → s.loaded = true

/-- The invariant together with the loader's bounds on `LEN` and `FUEL` (R24), which keep a run inside the widths of a
hardware with parameters `p` (R4, R14, R16). -/
structure State.Fits (s : State) (p : Params) : Prop where
  inv : s.Inv
  /-- R4, R24: `LEN <= LEN_MAX` -/
  lenFits : s.len ≤ lenMax p
  /-- R24: `FUEL < 2^FUEL_BITS` -/
  budgetFits : s.fuelBudget < 2 ^ p.fuelBits
  /-- R16, R24: `FUEL <= OUT_CAP` -/
  budgetCovered : s.fuelBudget ≤ p.outCap

/-- The states an instance with parameters `p` can be in: from reset, by host transactions and by steps. -/
inductive Reachable (p : Params) : State → Prop where
  | reset : Reachable p State.reset
  | host (t : Transaction) (s : State) : Reachable p s → Reachable p (transact p t s).state
  | step (s s' : State) : Reachable p s → Machine.step s = .next s' → Reachable p s'

end Sys2Proof.Machine

namespace Sys2Proof

/-- The register a combo code selects (R63): 4, 5, 6 are A, B, C. -/
def comboReads (k : Nibble) (r : Machine.Reg) : Bool :=
  match k.toNat, r with
  | 4, .a => true
  | 5, .b => true
  | 6, .c => true
  | _, _ => false

/-- The registers an instruction reads, because its effect names them or its combo code selects them (R11). -/
def Instr.reads (i : Instr) (r : Machine.Reg) : Bool :=
  match i with
  | .adv k => r == .a || comboReads k r
  | .bxl _ => r == .b
  | .bst k => comboReads k r
  | .jnz _ => r == .a
  | .bxc => r == .b || r == .c
  | .out k => comboReads k r
  | .bdv k => r == .a || comboReads k r
  | .cdv k => r == .a || comboReads k r

/-- The one register an instruction writes, if any (R11). -/
def Instr.writes : Instr → Option Machine.Reg
  | .adv _ => some .a
  | .bxl _ => some .b
  | .bst _ => some .b
  | .jnz _ => none
  | .bxc => some .b
  | .out _ => none
  | .bdv _ => some .b
  | .cdv _ => some .c

end Sys2Proof
end

