-- ==== Sys2Proof/Certificates/Slice0/Obligations.lean ====
section
/-! DEFINITION. What is claimed of the machine, from the numbered rules of spec/. Where a docstring says "stated", the
statement formalises the rule it names; otherwise it is derived, and the docstring names the sentence of the spec, or
the log entry, that it rests on. -/

open Sys2Proof Sys2Proof.Machine

/-! ### Encoding -/

/-- Derived (30_encoding.md R47, R56). Every well-formed instruction, with every operand its encoding admits, decodes
from its own words. -/
def Obligations.DecodeEncodeRoundTrip : Prop :=
  ∀ i : Instr, i.wellFormed = true → decode (encode i).1 (encode i).2 = .ok i

/-- Stated, R56: the decoder as a function of the two words. It has no register among its arguments. -/
def Obligations.DecoderIsThePairFunction : Prop :=
  ∀ opw opd : Nibble,
    decode opw opd =
      if 7 < opw.toNat then .error .invalidOpcode
      else if opw.toNat ∈ [0, 2, 5, 6, 7] ∧ 7 ≤ opd.toNat then .error .invalidCombo
      else match opw.toNat with
        | 0 => .ok (.adv opd)
        | 1 => .ok (.bxl opd)
        | 2 => .ok (.bst opd)
        | 3 => .ok (.jnz opd)
        | 4 => .ok .bxc
        | 5 => .ok (.out opd)
        | 6 => .ok (.bdv opd)
        | _ => .ok (.cdv opd)

/-- Derived (R48, R56). What decodes is well-formed and has these words again; only the operand word that `Bxc` ignores is
lost (the encoder's 0 there is the model's choice, log 17). -/
def Obligations.DecodedPairEncodesBack : Prop :=
  ∀ (opw opd : Nibble) (i : Instr), decode opw opd = .ok i →
    i.wellFormed = true ∧ (encode i).1 = opw ∧ (i ≠ .bxc → (encode i).2 = opd)

/-- Derived (R47, R48). Pairs of the spec, as the table numbers their bits: `adv 1` 0x01, `bxl 7` 0x17, `bst C` 0x26,
`jnz 0` 0x30, `bxc` 0x4F, `out A` 0x54, `bdv 3` 0x63, `cdv B` 0x75; 0x07 and 0x80 are illegal. -/
def Obligations.SpecPairsDecode : Prop :=
  decodeTableWord 8 0x01 = some (.adv 1) ∧ decodeTableWord 8 0x17 = some (.bxl 7)
    ∧ decodeTableWord 8 0x26 = some (.bst 6) ∧ decodeTableWord 8 0x30 = some (.jnz 0)
    ∧ decodeTableWord 8 0x4F = some .bxc ∧ decodeTableWord 8 0x54 = some (.out 4)
    ∧ decodeTableWord 8 0x63 = some (.bdv 3) ∧ decodeTableWord 8 0x75 = some (.cdv 5)
    ∧ decodeTableWord 8 0x07 = none ∧ decodeTableWord 8 0x80 = none

/-! ### Operands and the ALU -/

/-- Stated, R63: the combo value, for every operand word. -/
def Obligations.ComboResolution : Prop :=
  ∀ (k : Nibble) (s : State),
    (k.toNat ≤ 3 → combo k s = some (BitVec.ofNat 64 k.toNat))
      ∧ (k.toNat = 4 → combo k s = some s.a)
      ∧ (k.toNat = 5 → combo k s = some s.b)
      ∧ (k.toNat = 6 → combo k s = some s.c)
      ∧ (7 ≤ k.toNat → combo k s = none)

/-- Derived (41_shift_divide.md R70; the amounts 64 and above are the spec's decision D5, log 11). The shifter is floor
division by a power of two over the natural numbers, for every 64-bit amount. -/
def Obligations.ShiftIsFloorDivision : Prop :=
  ∀ v s : Word, (shr64 v s).toNat = v.toNat / 2 ^ s.toNat

/-- Derived (R70, "A hardware shifter implements the rule as"). The hardware's shifter, which looks at bits 63..6 of the
amount and shifts by bits 5..0, computes the same function. -/
def Obligations.HardwareShifterAgrees : Prop :=
  ∀ v s : Word,
    shr64 v s = if s.extractLsb' 6 58 = 0 then v >>> (s.extractLsb' 0 6).toNat else 0

/-- Derived (R71). The laws of the shifter: it never exceeds its operand, is 0 exactly below the divisor, and composes
with the amounts added as natural numbers. -/
def Obligations.ShifterLaws : Prop :=
  ∀ v s t : Word,
    (shr64 v s).toNat ≤ v.toNat
      ∧ shr64 v 0 = v
      ∧ shr64 0 s = 0
      ∧ (shr64 v s = 0 ↔ v.toNat < 2 ^ s.toNat)
      ∧ (shr64 (shr64 v s) t).toNat = v.toNat / 2 ^ (s.toNat + t.toNat)

/-! ### The instructions: each runs, with this next state -/

/-- Stated, R72. `Adv` for every combo code: A shifted by the value, nothing else but fuel and pc; a code of 7 or above
does not decode and A is not written; without fuel it does not begin. (For amounts of 64 and above the value 0 is
the spec's decision D5, log 11; the codes 8 to 15 are D7, log 15.) -/
def Obligations.AdvShiftsA : Prop :=
  ∀ (k : Nibble) (s : State),
    (k.toNat ≤ 6 → decode 0 k = .ok (.adv k) ∧ (s.fuel ≠ 0 → ∃ v, combo k s = some v ∧
        exec (.adv k) s = .next { s with
          a := BitVec.ofNat 64 (s.a.toNat / 2 ^ v.toNat), pc := s.pc + 2, fuel := s.fuel - 1 }))
      ∧ (7 ≤ k.toNat → decode 0 k = .error .invalidCombo ∧
          (s.status = .running → s.pc < s.len → s.fuel ≠ 0 →
            s.progWord s.pc = some 0 → s.progWord (s.pc + 1) = some k →
            step s = .next { s with status := .faulted, cause := some .invalidCombo }))
      ∧ (s.status = .running → s.pc < s.len → s.fuel = 0 →
          step s = .next { s with status := .faulted, cause := some .fuelExhausted })

/-- Stated, R73. `Bdv` for every combo code: B gets A shifted, A is not changed; the rest as for `Adv`
(decisions D5, D7: log 11, 15). -/
def Obligations.BdvShiftsAIntoB : Prop :=
  ∀ (k : Nibble) (s : State),
    (k.toNat ≤ 6 → decode 6 k = .ok (.bdv k) ∧ (s.fuel ≠ 0 → ∃ v, combo k s = some v ∧
        exec (.bdv k) s = .next { s with
          b := BitVec.ofNat 64 (s.a.toNat / 2 ^ v.toNat), pc := s.pc + 2, fuel := s.fuel - 1 }))
      ∧ (7 ≤ k.toNat → decode 6 k = .error .invalidCombo ∧
          (s.status = .running → s.pc < s.len → s.fuel ≠ 0 →
            s.progWord s.pc = some 6 → s.progWord (s.pc + 1) = some k →
            step s = .next { s with status := .faulted, cause := some .invalidCombo }))
      ∧ (s.status = .running → s.pc < s.len → s.fuel = 0 →
          step s = .next { s with status := .faulted, cause := some .fuelExhausted })

/-- Stated, R74. `Cdv` for every combo code: C gets A shifted, A is not changed; the rest as for `Adv`
(decisions D5, D7: log 11, 15). -/
def Obligations.CdvShiftsAIntoC : Prop :=
  ∀ (k : Nibble) (s : State),
    (k.toNat ≤ 6 → decode 7 k = .ok (.cdv k) ∧ (s.fuel ≠ 0 → ∃ v, combo k s = some v ∧
        exec (.cdv k) s = .next { s with
          c := BitVec.ofNat 64 (s.a.toNat / 2 ^ v.toNat), pc := s.pc + 2, fuel := s.fuel - 1 }))
      ∧ (7 ≤ k.toNat → decode 7 k = .error .invalidCombo ∧
          (s.status = .running → s.pc < s.len → s.fuel ≠ 0 →
            s.progWord s.pc = some 7 → s.progWord (s.pc + 1) = some k →
            step s = .next { s with status := .faulted, cause := some .invalidCombo }))
      ∧ (s.status = .running → s.pc < s.len → s.fuel = 0 →
          step s = .next { s with status := .faulted, cause := some .fuelExhausted })

/-- Stated, R75. `Bxl` for every operand word: B XOR the zero-extended literal, nothing else but fuel and pc; only a
lack of fuel stops it. (Literals 8 to 15 used as they are: the spec's decision D7, log 15.) -/
def Obligations.BxlXorsLiteral : Prop :=
  ∀ (lit : Nibble) (s : State),
    decode 1 lit = .ok (.bxl lit)
      ∧ (s.fuel ≠ 0 → exec (.bxl lit) s = .next { s with
          b := s.b ^^^ BitVec.ofNat 64 lit.toNat, pc := s.pc + 2, fuel := s.fuel - 1 })
      ∧ (lit.toNat ≤ 7 → ∀ n, 3 ≤ n → (s.b ^^^ BitVec.ofNat 64 lit.toNat).getLsbD n = s.b.getLsbD n)
      ∧ (s.status = .running → s.pc < s.len → s.fuel = 0 →
          step s = .next { s with status := .faulted, cause := some .fuelExhausted })

/-- Stated, R76. `Bst` for every combo code: B is the value mod 8, nothing else but fuel and pc; a code of 7 or above
does not decode and B is not written; without fuel it does not begin (codes 8 to 15: decision D7, log 15). -/
def Obligations.BstKeepsLowThreeBits : Prop :=
  ∀ (k : Nibble) (s : State),
    (k.toNat ≤ 6 → decode 2 k = .ok (.bst k) ∧ (s.fuel ≠ 0 → ∃ v, combo k s = some v ∧
        exec (.bst k) s = .next { s with
          b := BitVec.ofNat 64 (v.toNat % 8), pc := s.pc + 2, fuel := s.fuel - 1 }))
      ∧ (7 ≤ k.toNat → decode 2 k = .error .invalidCombo ∧
          (s.status = .running → s.pc < s.len → s.fuel ≠ 0 →
            s.progWord s.pc = some 2 → s.progWord (s.pc + 1) = some k →
            step s = .next { s with status := .faulted, cause := some .invalidCombo }))
      ∧ (s.status = .running → s.pc < s.len → s.fuel = 0 →
          step s = .next { s with status := .faulted, cause := some .fuelExhausted })

/-- Derived (R77; that no operand word is checked is the spec's decision D8, log 15). `Bxc` with every operand word: B XOR
C, nothing else but fuel and pc. -/
def Obligations.BxcXorsC : Prop :=
  ∀ (ignored : Nibble) (s : State),
    decode 4 ignored = .ok .bxc
      ∧ (s.fuel ≠ 0 → exec .bxc s = .next { s with
          b := s.b ^^^ s.c, pc := s.pc + 2, fuel := s.fuel - 1 })

/-- Stated, R86. `Out` for every combo code: one element, the value mod 8, at the end of `out`, no register, fuel and pc;
a code of 7 or above does not decode and appends nothing; without fuel it does not begin; no other instruction
changes `out` (codes 8 to 15: decision D7, log 15). -/
def Obligations.OutAppendsDigit : Prop :=
  ∀ (k : Nibble) (s : State),
    (k.toNat ≤ 6 → decode 5 k = .ok (.out k) ∧ (s.fuel ≠ 0 → ∃ v, combo k s = some v ∧
        exec (.out k) s = .next { s with
          out := s.out ++ [BitVec.ofNat 3 (v.toNat % 8)], pc := s.pc + 2, fuel := s.fuel - 1 }))
      ∧ (7 ≤ k.toNat → decode 5 k = .error .invalidCombo ∧
          (s.status = .running → s.pc < s.len → s.fuel ≠ 0 →
            s.progWord s.pc = some 5 → s.progWord (s.pc + 1) = some k →
            step s = .next { s with status := .faulted, cause := some .invalidCombo }))
      ∧ (s.status = .running → s.pc < s.len → s.fuel = 0 →
          step s = .next { s with status := .faulted, cause := some .fuelExhausted })
      ∧ (∀ (i : Instr) (t : State), exec i s = .next t → (∀ j, i ≠ .out j) → t.out = s.out)

/-- Derived (43_control.md R80, R81; that the target is examined only when the jump is taken, and that `LEN` itself is
out of range, are the spec's decision D9, log 14). `Jnz` for every operand word and every A. -/
def Obligations.JnzJumpsOrFallsThrough : Prop :=
  ∀ (lit : Nibble) (s : State),
    decode 3 lit = .ok (.jnz lit)
      ∧ (s.fuel ≠ 0 → s.a = 0 →
          exec (.jnz lit) s = .next { s with pc := s.pc + 2, fuel := s.fuel - 1 })
      ∧ (s.fuel ≠ 0 → s.a ≠ 0 → lit.toNat % 2 = 0 → lit.toNat < s.len →
          exec (.jnz lit) s = .next { s with pc := lit.toNat, fuel := s.fuel - 1 })
      ∧ (s.a ≠ 0 → lit.toNat % 2 = 1 ∨ s.len ≤ lit.toNat →
          exec (.jnz lit) s = .next { s with status := .faulted, cause := some .jumpOutOfRange })

/-- Derived (the model's reading, log 18). A term with a combo code of 7 or above, which no decoded instruction is, takes the
condition its words would raise. -/
def Obligations.IllFormedTermRaisesInvalidCombo : Prop :=
  ∀ (i : Instr) (s : State), i.wellFormed = false →
    exec i s = .next { s with status := .faulted, cause := some .invalidCombo }

/-! ### Frames and the register table -/

/-- Derived (10_state.md R11, R12, 20_memory.md R31, 44_output.md R86). The frame of all eight instructions: every register but
the one the instruction writes, every program word, `LEN`, `FUEL` and the load flag are unchanged; `out` is unchanged but
for `Out`; `STATUS` and `CAUSE` change only by fault entry, which changes nothing else. -/
def Obligations.InstructionFrame : Prop :=
  ∀ (i : Instr) (s t : State), exec i s = .next t →
    (∀ r, i.writes ≠ some r → t.reg r = s.reg r)
      ∧ (∀ n, t.progWord n = s.progWord n)
      ∧ t.prog = s.prog ∧ t.len = s.len ∧ t.fuelBudget = s.fuelBudget ∧ t.loaded = s.loaded
      ∧ ((∀ k, i ≠ .out k) → t.out = s.out)
      ∧ ((t.status = s.status ∧ t.cause = s.cause)
          ∨ ∃ x, t = { s with status := .faulted, cause := some x })

/-- Stated, R11: which instruction reads and which writes which register. A register an instruction does not write keeps
its value; a register it does not read may hold anything, and the instruction does the same. -/
def Obligations.RegisterAccessTable : Prop :=
  ∀ (i : Instr) (s t : State) (r : Reg) (v : Word), i.wellFormed = true → exec i s = .next t →
    (i.writes ≠ some r → t.reg r = s.reg r)
      ∧ (i.reads r = false →
          exec i (s.setReg r v) = .next (if i.writes = some r then t else t.setReg r v))

/-- Stated, 40_step_cycle.md R65: the one update of `pc` of every executed instruction, and that the new `pc` is even and at
most `LEN`. -/
def Obligations.ProgramCounterUpdate : Prop :=
  ∀ (i : Instr) (s t : State), exec i s = .next t → s.status = .running → t.status = .running →
    ((∀ lit, i ≠ .jnz lit) → t.pc = s.pc + 2)
      ∧ (∀ lit, i = .jnz lit → t.pc = if s.a = 0 then s.pc + 2 else lit.toNat)
      ∧ (s.len % 2 = 0 → s.pc % 2 = 0 → s.pc < s.len → t.pc % 2 = 0 ∧ t.pc ≤ s.len)

/-! ### The step -/

/-- Derived (R60, R33). With fuel, when the words at pc and pc + 1 decode to an instruction, the step of a running instance
is exactly that instruction's `exec` at that state; nothing is added around it. -/
def Obligations.StepRunsDecodedInstruction : Prop :=
  ∀ (s : State) (opw opd : Nibble) (i : Instr), s.status = .running → s.pc < s.len → s.fuel ≠ 0 →
    s.progWord s.pc = some opw → s.progWord (s.pc + 1) = some opd → decode opw opd = .ok i →
    step s = exec i s

/-- Derived (R46, R60). An instruction placed with `withFetchWord` is what the next step runs, from any state (placing it is
the model's device, log 10). -/
def Obligations.PlacedWordIsRun : Prop :=
  ∀ (s : State) (w : Nat) (i : Instr), decodeTableWord 8 w = some i →
    step (s.withFetchWord 8 w) = exec i (s.withFetchWord 8 w)

/-- Stated, 43_control.md R82: when and how a run halts, and that it stays halted. -/
def Obligations.HaltRule : Prop :=
  (∀ s : State, s.status = .running → s.len ≤ s.pc → step s = .next { s with status := .halted })
    ∧ (∀ s t : State, s.status = .running → step s = .next t → t.status = .halted →
        s.len ≤ s.pc ∧ (s.Inv → s.pc = s.len))
    ∧ (∀ s t : State, s.status = .running → s.pc < s.len → step s = .next t → s.len ≤ t.pc → t.pc = s.pc + 2)
    ∧ (∀ s : State, s.status = .halted → step s = .next s)
    ∧ (∀ (p : Params) (x : Transaction) (s : State), s.status = .halted →
        (transact p x s).state ≠ s → x = .reset ∨ ∃ args, x = .load args)

/-- Stated, 60_exceptions.md R94: `FuelExhausted` is raised when an instruction is due without fuel, whatever it is, and
only then. -/
def Obligations.FuelExhaustedRule : Prop :=
  (∀ s : State, s.status = .running → s.pc < s.len → s.fuel = 0 →
      step s = .next { s with status := .faulted, cause := some .fuelExhausted })
    ∧ (∀ s t : State, s.status = .running → step s = .next t → t.status = .faulted →
        t.cause = some .fuelExhausted → s.pc < s.len ∧ s.fuel = 0)

/-- Stated, R91: `InvalidOpcode` exactly when the opcode word due is above 7, whatever the operand word; the registers are
not touched. -/
def Obligations.InvalidOpcodeRule : Prop :=
  ∀ (s : State) (opw opd : Nibble), s.status = .running → s.pc < s.len → s.fuel ≠ 0 →
    s.progWord s.pc = some opw → s.progWord (s.pc + 1) = some opd →
    (7 < opw.toNat ↔ step s = .next { s with status := .faulted, cause := some .invalidOpcode })

/-- Derived (R92; operand words 8 to 15 are the spec's decision D7, log 15). `InvalidCombo` exactly when the opcode due is one
of the five with a combo operand and the operand word is 7 or above, whatever the registers hold. -/
def Obligations.InvalidComboRule : Prop :=
  ∀ (s : State) (opw opd : Nibble), s.status = .running → s.pc < s.len → s.fuel ≠ 0 →
    s.progWord s.pc = some opw → s.progWord (s.pc + 1) = some opd →
    (opw.toNat ∈ [0, 2, 5, 6, 7] ∧ 7 ≤ opd.toNat
      ↔ step s = .next { s with status := .faulted, cause := some .invalidCombo })

/-- Stated, R93: `JumpOutOfRange` exactly for a taken `Jnz` to an odd target or one not below `LEN`; the same pair falls
through when A is 0; no other opcode raises it. -/
def Obligations.JumpOutOfRangeRule : Prop :=
  (∀ (s : State) (opd : Nibble), s.status = .running → s.pc < s.len → s.fuel ≠ 0 →
      s.progWord s.pc = some 3 → s.progWord (s.pc + 1) = some opd →
      (s.a ≠ 0 ∧ (opd.toNat % 2 = 1 ∨ s.len ≤ opd.toNat)
        ↔ step s = .next { s with status := .faulted, cause := some .jumpOutOfRange })
      ∧ (s.a = 0 → step s = .next { s with pc := s.pc + 2, fuel := s.fuel - 1 }))
    ∧ (∀ s t : State, s.status = .running → step s = .next t → t.status = .faulted →
        t.cause = some .jumpOutOfRange → s.progWord s.pc = some 3)

/-- Stated, 40_step_cycle.md R62: faults are precise. After a faulting step A, B, C, `out`, `pc`, `fuel` and all else but
`STATUS` and `CAUSE` are as the step before left them. -/
def Obligations.FaultsArePrecise : Prop :=
  ∀ s t : State, s.status = .running → step s = .next t → t.status = .faulted →
    ∃ x, t = { s with status := .faulted, cause := some x }

/-- Derived (60_exceptions.md R98). No step leaves HALTED or FAULTED, a rest in IDLE changes nothing (log 8), START and READBACK
do not leave HALTED or FAULTED either, and a LOAD that leaves it begins from index 0 with no fault. -/
def Obligations.EndedRunsStayEnded : Prop :=
  (∀ s : State, s.status ≠ .running → step s = .next s)
    ∧ (∀ (p : Params) (x : Transaction) (s : State), s.status = .halted ∨ s.status = .faulted →
        (transact p x s).state.status = s.status
          ∨ ((transact p x s).state.status = .idle ∧ (transact p x s).state.pc = 0
              ∧ (transact p x s).state.cause = none))

/-- Derived (R66; decision D10, log 16). An executed instruction costs one unit of fuel, halting and faulting cost nothing. -/
def Obligations.FuelCharge : Prop :=
  ∀ s t : State, s.status = .running → step s = .next t →
    (t.status = .running → t.fuel + 1 = s.fuel) ∧ (t.status ≠ .running → t.fuel = s.fuel)

/-- Stated, 20_memory.md R44: a step leaves `out` alone or, when it executes an `Out`, appends that one element at its end; the
host reads the elements in order. -/
def Obligations.OutputGrowsAtItsEnd : Prop :=
  (∀ s t : State, step s = .next t →
      t.out = s.out
        ∨ ∃ opd k v, s.status = .running ∧ s.progWord s.pc = some 5 ∧ s.progWord (s.pc + 1) = some opd
            ∧ decode 5 opd = .ok (.out k) ∧ combo k s = some v
            ∧ t.out = s.out ++ [BitVec.ofNat 3 (v.toNat % 8)])
    ∧ (∀ (s : State) (opd : Nibble) (k : Nibble) (t : State), s.status = .running → s.fuel ≠ 0 →
        s.progWord s.pc = some 5 → s.progWord (s.pc + 1) = some opd → decode 5 opd = .ok (.out k) →
        step s = .next t → ∃ d, t.out = s.out ++ [d])
    ∧ (∀ (s : State) (r : Readback), readback s = some r → r.out = s.out)

/-- Stated, R31: the program space is written only by the host's LOAD, never during a run. (RESET, which leaves the program
unspecified, ends a run: R28, log 20.) -/
def Obligations.ProgramIsImmutable : Prop :=
  (∀ s t : State, step s = .next t → (∀ n, t.progWord n = s.progWord n) ∧ t.prog = s.prog ∧ t.len = s.len)
    ∧ (∀ (p : Params) (x : Transaction) (s : State), x ≠ .reset →
        (transact p x s).state.prog ≠ s.prog ∨ (transact p x s).state.len ≠ s.len →
        s.status ≠ .running ∧ ∃ args, x = .load args)

/-- Stated, R42: after a LOAD and START, at every point of the run, every index holds the word the host loaded there. -/
def Obligations.FetchReturnsTheLoadedWord : Prop :=
  ∀ (p : Params) (x : LoadArgs) (s t : State) (n i w : Nat), (transact p (.load x) s).accepted = true →
    Host.Core.run core n (transact p .start (transact p (.load x) s).state).state = .next t →
    x.words[i]? = some w → ∃ q, t.progWord i = some q ∧ q.toNat = w

/-! ### What a step cannot see -/

/-- Derived (R61: "no other pair is looked at in that step", decision D6, log 13). A step depends on the program only through
the pair at `pc` and through `LEN`. -/
def Obligations.StepSeesOnlyItsPair : Prop :=
  ∀ (s t : State) (m : Memory), m.read s.pc = s.prog.read s.pc → m.read (s.pc + 1) = s.prog.read (s.pc + 1) →
    step s = .next t → step { s with prog := m } = .next { t with prog := m }

/-- Derived (20_memory.md R30: the output stream "cannot be read by any instruction"). What is already in `out` changes nothing
of what a step does. -/
def Obligations.OutputIsNeverRead : Prop :=
  ∀ (s t : State) (o : List OutWord), step s = .next t →
    ∃ d, t.out = s.out ++ d ∧ step { s with out := o } = .next { t with out := o ++ d }

/-- Derived (40_step_cycle.md R67: "the results are equal in everything but the final `fuel`"). A run that halts with some fuel
halts with any larger amount after as many steps, in the same state but for the fuel left over. -/
def Obligations.MoreFuelSameResult : Prop :=
  ∀ (n : Nat) (s t : State) (f g : Nat), f ≤ g →
    Host.Core.run core n { s with fuel := f } = .next t → t.status = .halted →
    Host.Core.run core n { s with fuel := g } = .next { t with fuel := t.fuel + (g - f) }

/-! ### The invariant and the runs -/

/-- Derived (10_state.md R22, R23). The state after reset meets the invariant. (That `LEN` and `FUEL` are 0 there and the
program lists nothing is the model's choice, log 2, 3, 4.) -/
def Obligations.ResetMeetsInv : Prop := State.reset.Inv

/-- Derived (R23). Every step keeps the invariant: canonical program memory, program present and of even length, `pc` even and
at most `LEN`, `|out| + fuel <= FUEL`, `CAUSE` set exactly when FAULTED. -/
def Obligations.StepKeepsInv : Prop :=
  ∀ s t : State, s.Inv → step s = .next t → t.Inv

/-- Derived (R23; LOAD, START, READBACK: R24 to R26). Every host transaction, accepted or refused, keeps the invariant. The RESET
case is the model's choice: R22 and R28 leave the program, `LEN` and A, B, C unspecified there and name no value for `FUEL`; the
clauses on the program, `LEN` and `FUEL` hold after RESET because the model's RESET gives `State.reset` with `LEN` = 0, `FUEL` = 0
and no program word (log 20, with log 2, 3, 4). -/
def Obligations.TransactionsKeepInv : Prop :=
  ∀ (p : Params) (x : Transaction) (s : State), s.Inv → (transact p x s).state.Inv

/-- Derived (R14: "`pc` never wraps"; R16: a run "can never overflow it"; R4). In every state that host transactions and steps
reach, the invariant holds and `pc`, `LEN`, the fuel counter and the buffer fit the widths of the hardware; so the natural
numbers of the model (log 6) are those of a hardware with parameters `p`. For the states with no LOAD since reset, what this
says of the program and of `LEN` (and the invariant's clause on `FUEL`) is the model's choice, not the spec's, which leaves
them unspecified (R22): log 2, 3, 4 and 20. -/
def Obligations.ReachableStatesFitTheHardware : Prop :=
  ∀ (p : Params) (s : State), Reachable p s →
    s.Inv ∧ s.pc < 2 ^ p.pcBits ∧ s.len ≤ lenMax p ∧ s.fuel < 2 ^ p.fuelBits ∧ s.out.length ≤ p.outCap
      ∧ (s.pc < s.len → s.pc + 2 < 2 ^ p.pcBits)

/-- Derived (R14, R16, R23, R24; R4). The step lemma behind `ReachableStatesFitTheHardware`, for any state, reached or not: the
invariant with `LEN` at most `LEN_MAX`, `FUEL` below `2^FUEL_BITS` and at most `OUT_CAP` is kept by every step and every host
transaction. The RESET case is the model's choice, as in `TransactionsKeepInv` (log 20, with log 2, 3, 4). -/
def Obligations.StepAndTransactionsKeepFit : Prop :=
  ∀ (p : Params) (s : State), s.Fits p →
    (∀ t, step s = .next t → t.Fits p) ∧ (∀ x : Transaction, (transact p x s).state.Fits p)

/-- Derived (70_reset_and_hazards.md R119: "in RUNNING the step function always has exactly one next state"). Under the
invariant no step stops, with a fault or a refusal. -/
def Obligations.StepNeverStops : Prop :=
  ∀ s : State, s.Inv → ∃ t, step s = .next t

/-- Derived (R68: "a run has at most `FUEL + 1` steps"). Under the invariant a run has ended after `fuel + 1` steps. -/
def Obligations.RunEndsWithinFuel : Prop :=
  ∀ s : State, s.Inv → s.status = .running →
    ∃ t : State, Host.Core.run core (s.fuel + 1) s = .next t ∧ (t.status = .halted ∨ t.status = .faulted)

/-- Derived (92_eei_decisions.md D31; 93_implementation_defined.md U3, U4). A well-formed program, run for any number of steps
from any even index, can end in no fault but `FuelExhausted`. -/
def Obligations.WellFormedProgramsOnlyRunOutOfFuel : Prop :=
  ∀ (n : Nat) (words : List Nibble) (s t : State), programWellFormed words = true →
    s.prog = Memory.ofWords words → s.len = words.length → s.pc % 2 = 0 → s.status = .running →
    Host.Core.run core n s = .next t → t.status = .faulted → t.cause = some .fuelExhausted

/-! ### The host's transactions -/

/-- Derived (R22, R28; decision D17). The values the spec gives for reset, at power-on and by RESET in any status. The values of
A, B, C, the program and `LEN` are the model's choice (log 1 to 4, 20) and are not claimed. -/
def Obligations.ResetValues : Prop :=
  (State.reset.status = .idle ∧ State.reset.cause = none ∧ State.reset.pc = 0 ∧ State.reset.out = []
      ∧ State.reset.fuel = 0 ∧ State.reset.loaded = false)
    ∧ ∀ (p : Params) (s : State), (transact p .reset s).accepted = true
      ∧ (transact p .reset s).state.status = .idle ∧ (transact p .reset s).state.cause = none
      ∧ (transact p .reset s).state.pc = 0 ∧ (transact p .reset s).state.out = []
      ∧ (transact p .reset s).state.fuel = 0 ∧ (start (transact p .reset s).state).accepted = false

/-- Derived (R24; decisions D14, D18, D20). LOAD is accepted exactly under its preconditions, and then writes every field; a
refused LOAD changes nothing. -/
def Obligations.LoadEffect : Prop :=
  ∀ (p : Params) (x : LoadArgs) (s : State),
    (if s.status ≠ .running ∧ x.a < 2 ^ 64 ∧ x.b < 2 ^ 64 ∧ x.c < 2 ^ 64 ∧ x.words.length % 2 = 0
        ∧ x.words.length ≤ lenMax p ∧ (∀ w ∈ x.words, w ≤ 15) ∧ x.fuel < 2 ^ p.fuelBits ∧ x.fuel ≤ p.outCap
      then (transact p (.load x) s).accepted = true
        ∧ ∃ t, (transact p (.load x) s).state = t
          ∧ t.a.toNat = x.a ∧ t.b.toNat = x.b ∧ t.c.toNat = x.c
          ∧ (∀ i w, x.words[i]? = some w → ∃ q, t.progWord i = some q ∧ q.toNat = w)
          ∧ (∀ i, x.words.length ≤ i → t.progWord i = none)
          ∧ t.prog.wf ∧ t.len = x.words.length ∧ t.fuelBudget = x.fuel ∧ t.status = .idle ∧ t.cause = none
          ∧ t.pc = 0 ∧ t.out = [] ∧ t.fuel = 0 ∧ t.loaded = true
      else (transact p (.load x) s).accepted = false ∧ (transact p (.load x) s).state = s)

/-- Derived (R25, R27; decision D18). START is accepted exactly in IDLE after a LOAD, and then begins the run; a refused START
changes nothing. -/
def Obligations.StartEffect : Prop :=
  ∀ (p : Params) (s : State),
    (s.status = .idle → s.loaded = true →
        transact p .start s = { accepted := true, state := { s with
          pc := 0, out := [], fuel := s.fuelBudget, cause := none, status := .running } })
      ∧ (s.status ≠ .idle ∨ s.loaded = false → transact p .start s = { accepted := false, state := s })

/-- Derived (R18, R19, R26; decisions D12, D19). READBACK is refused while RUNNING, changes nothing, and returns every piece of
state it names, A, B and C only once a LOAD has been accepted (93_implementation_defined.md U2). -/
def Obligations.ReadbackReturnsTheState : Prop :=
  ∀ (p : Params) (s : State),
    (transact p .readback s).state = s
      ∧ (s.status = .running → readback s = none)
      ∧ (s.status ≠ .running → ∃ r, readback s = some r
          ∧ r.pc = s.pc ∧ r.fuel = s.fuel ∧ r.out = s.out ∧ r.outLength = s.out.length
          ∧ (r.status = 0 ↔ s.status = .idle) ∧ (r.status = 2 ↔ s.status = .halted)
          ∧ (r.status = 3 ↔ s.status = .faulted)
          ∧ (r.cause = 0 ↔ s.cause = none) ∧ (r.cause = 1 ↔ s.cause = some .invalidOpcode)
          ∧ (r.cause = 2 ↔ s.cause = some .invalidCombo) ∧ (r.cause = 3 ↔ s.cause = some .jumpOutOfRange)
          ∧ (r.cause = 4 ↔ s.cause = some .fuelExhausted)
          ∧ (s.loaded = true → r.a = some s.a ∧ r.b = some s.b ∧ r.c = some s.c)
          ∧ (s.loaded = false → r.a = none ∧ r.b = none ∧ r.c = none))

/-- Stated, 70_reset_and_hazards.md R113: every run starts clean. From any two states in which the same LOAD and then START are
accepted, the runs begin in one and the same state, whose values are these; and an ended run cannot be started again
without a LOAD. -/
def Obligations.EveryRunStartsClean : Prop :=
  ∀ (p : Params) (x : LoadArgs) (s s' : State),
    ((transact p (.load x) s).accepted = true → (transact p (.load x) s').accepted = true →
        ∃ t, transact p .start (transact p (.load x) s).state = { accepted := true, state := t }
          ∧ transact p .start (transact p (.load x) s').state = { accepted := true, state := t }
          ∧ t.pc = 0 ∧ t.out = [] ∧ t.fuel = x.fuel ∧ t.cause = none ∧ t.status = .running
          ∧ t.a.toNat = x.a ∧ t.b.toNat = x.b ∧ t.c.toNat = x.c)
      ∧ (s.status = .halted ∨ s.status = .faulted → (transact p .start s).accepted = false)

/-- Derived (40_step_cycle.md R69, 60_exceptions.md R97; decision D13). A run that HALTED gives its output and registers; a run that
FAULTED gives its condition alone; an idle or running instance gives no result. -/
def Obligations.RunResults : Prop :=
  ∀ s : State, s.Inv →
    (s.status = .halted → runResult s = some (.halted s.a s.b s.c s.out))
      ∧ (s.status = .faulted → ∃ x, s.cause = some x ∧ runResult s = some (.faulted x))
      ∧ (s.status = .idle ∨ s.status = .running → runResult s = none)
end

