-- ==== Sys2Proof/Laws/Decode.lean ====
section
/-! SUPPORT. What the decoder can answer, said once. -/

namespace Sys2Proof

/-- The combo check: a code in 0..6 is kept, any other is `InvalidCombo` (spec/30_encoding.md R52, R53). -/
theorem withComboCode_ok (opd : Nibble) (mk : Nibble → Instr) (i : Instr) (h : withComboCode opd mk = .ok i) :
    comboCodeOk opd = true ∧ i = mk opd := by
  unfold withComboCode at h
  split at h
  · exact ⟨‹_›, by injection h with h; exact h.symm⟩
  · cases h

theorem withComboCode_error (opd : Nibble) (mk : Nibble → Instr) (e : DecodeError)
    (h : withComboCode opd mk = .error e) : comboCodeOk opd = false ∧ e = .invalidCombo := by
  unfold withComboCode at h
  split at h
  · cases h
  · rename_i hk
    exact ⟨by simpa using hk, by injection h with h; exact h.symm⟩

/-- The opcode words below 8, one by one. -/
theorem opcode_cases (opw : Nibble) : opw.toNat = 0 ∨ opw.toNat = 1 ∨ opw.toNat = 2 ∨ opw.toNat = 3 ∨ opw.toNat = 4 ∨
    opw.toNat = 5 ∨ opw.toNat = 6 ∨ opw.toNat = 7 ∨ 7 < opw.toNat := by omega

/-- R56's map as a chain of tests on the opcode word. -/
theorem decode_eq (opw opd : Nibble) :
    decode opw opd =
      if opw.toNat = 0 then withComboCode opd .adv
      else if opw.toNat = 1 then .ok (.bxl opd)
      else if opw.toNat = 2 then withComboCode opd .bst
      else if opw.toNat = 3 then .ok (.jnz opd)
      else if opw.toNat = 4 then .ok .bxc
      else if opw.toNat = 5 then withComboCode opd .out
      else if opw.toNat = 6 then withComboCode opd .bdv
      else if opw.toNat = 7 then withComboCode opd .cdv
      else .error .invalidOpcode := by
  revert opw
  decide +revert

end Sys2Proof
end

