-- ==== Sys2Proof/Laws/Memory.lean ====
section
/-! SUPPORT. The laws of the program space: every operation keeps the canonical form, a word written is read back,
and a write leaves the other words alone. -/

namespace Sys2Proof.Machine

theorem Memory.read_write_same (m : Memory) (i : Nat) (w : Nibble) : (m.write i w).read i = some w := by
  induction m with
  | nil => simp [Memory.write, Memory.read]
  | cons x m ih =>
    obtain ⟨j, v⟩ := x
    simp only [Memory.write]
    split
    · simp [Memory.read]
    · split
      · simp [Memory.read]
      · rename_i h
        simpa [Memory.read, Ne.symm h] using ih

theorem Memory.read_write_other (m : Memory) (i k : Nat) (w : Nibble) (h : k ≠ i) :
    (m.write i w).read k = m.read k := by
  induction m with
  | nil => simp [Memory.write, Memory.read, h.symm]
  | cons x m ih =>
    obtain ⟨j, v⟩ := x
    simp only [Memory.write]
    split
    · simp [Memory.read, h.symm]
    · split
      · subst_vars
        simp [Memory.read, h.symm]
      · simp only [Memory.read, ih]

/-- The indices a write can list: the written one and those already listed. -/
theorem Memory.mem_write (m : Memory) (i : Nat) (w : Nibble) (x : Nat × Nibble) (hx : x ∈ m.write i w) :
    x = (i, w) ∨ x ∈ m := by
  induction m with
  | nil => simpa [Memory.write] using hx
  | cons y m ih =>
    obtain ⟨j, v⟩ := y
    simp only [Memory.write] at hx
    split at hx
    · simpa using hx
    · split at hx
      · rcases List.mem_cons.1 hx with h | h
        · exact .inl h
        · exact .inr (List.mem_cons_of_mem _ h)
      · rcases List.mem_cons.1 hx with h | h
        · exact .inr (h ▸ List.mem_cons_self)
        · exact (ih h).imp id (List.mem_cons_of_mem _)

/-- A write keeps the canonical form. -/
theorem Memory.write_wf (m : Memory) (i : Nat) (w : Nibble) (h : m.wf) : (m.write i w).wf := by
  induction m with
  | nil => simp [Memory.write, Memory.wf]
  | cons y m ih =>
    obtain ⟨j, v⟩ := y
    obtain ⟨hlt, htl⟩ := List.pairwise_cons.1 h
    simp only [Memory.write]
    split
    · rename_i hij
      refine List.pairwise_cons.2 ⟨fun x hx => ?_, h⟩
      rcases List.mem_cons.1 hx with rfl | hx
      · exact hij
      · exact Nat.lt_trans hij (hlt x hx)
    · split
      · subst_vars
        exact List.pairwise_cons.2 ⟨hlt, htl⟩
      · refine List.pairwise_cons.2 ⟨fun x hx => ?_, ih htl⟩
        rcases Memory.mem_write m i w x hx with rfl | hx
        · simp only
          omega
        · exact hlt x hx

/-- The indices of a program placed from `i` on. -/
theorem Memory.mem_ofWordsFrom (i : Nat) (ws : List Nibble) (x : Nat × Nibble) (hx : x ∈ Memory.ofWordsFrom i ws) :
    i ≤ x.1 ∧ x.1 < i + ws.length := by
  induction ws generalizing i with
  | nil => simp [Memory.ofWordsFrom] at hx
  | cons w ws ih =>
    rcases List.mem_cons.1 hx with rfl | hx
    · simp
    · have := ih (i + 1) hx
      simp only [List.length_cons]
      omega

theorem Memory.ofWordsFrom_wf (i : Nat) (ws : List Nibble) : (Memory.ofWordsFrom i ws).wf := by
  induction ws generalizing i with
  | nil => exact List.Pairwise.nil
  | cons w ws ih =>
    exact List.pairwise_cons.2 ⟨fun x hx => Nat.lt_of_succ_le (Memory.mem_ofWordsFrom _ _ _ hx).1, ih (i + 1)⟩

/-- What LOAD places is in canonical form. -/
theorem Memory.ofWords_wf (ws : List Nibble) : (Memory.ofWords ws).wf := Memory.ofWordsFrom_wf 0 ws

theorem Memory.read_ofWordsFrom (i k : Nat) (ws : List Nibble) :
    (Memory.ofWordsFrom i ws).read (i + k) = ws[k]? := by
  induction ws generalizing i k with
  | nil => rfl
  | cons w ws ih =>
    cases k with
    | zero => simp [Memory.ofWordsFrom, Memory.read]
    | succ k =>
      simp only [Memory.ofWordsFrom, Memory.read]
      rw [if_neg (by omega), show i + (k + 1) = i + 1 + k by omega, ih (i + 1) k, List.getElem?_cons_succ]

/-- `prog[i]` after LOAD is `words[i]` (spec/10_state.md R24). -/
theorem Memory.read_ofWords (ws : List Nibble) (k : Nat) : (Memory.ofWords ws).read k = ws[k]? := by
  have := Memory.read_ofWordsFrom 0 k ws
  rwa [Nat.zero_add] at this

/-- The memory of the state after reset is in canonical form. -/
theorem State.reset_prog_wf : State.reset.prog.wf := List.Pairwise.nil

/-- Placing a pair keeps the canonical form. -/
theorem State.withPair_prog_wf (s : State) (opw opd : Nibble) (h : s.prog.wf) : (s.withPair opw opd).prog.wf :=
  Memory.write_wf _ _ _ (Memory.write_wf _ _ _ h)

end Sys2Proof.Machine
end

