-- ==== Sys2Proof/Laws/State.lean ====
section
/-! SUPPORT. One lemma per field per update of `State`, so that no later proof unfolds a record update. -/

namespace Sys2Proof.Machine

section outAppend
variable (s : State) (d : OutWord)

@[simp] theorem State.outAppend_a : (s.outAppend d).a = s.a := rfl
@[simp] theorem State.outAppend_b : (s.outAppend d).b = s.b := rfl
@[simp] theorem State.outAppend_c : (s.outAppend d).c = s.c := rfl
@[simp] theorem State.outAppend_pc : (s.outAppend d).pc = s.pc := rfl
@[simp] theorem State.outAppend_out : (s.outAppend d).out = s.out ++ [d] := rfl
@[simp] theorem State.outAppend_fuel : (s.outAppend d).fuel = s.fuel := rfl
@[simp] theorem State.outAppend_status : (s.outAppend d).status = s.status := rfl
@[simp] theorem State.outAppend_cause : (s.outAppend d).cause = s.cause := rfl
@[simp] theorem State.outAppend_prog : (s.outAppend d).prog = s.prog := rfl
@[simp] theorem State.outAppend_len : (s.outAppend d).len = s.len := rfl
@[simp] theorem State.outAppend_fuelBudget : (s.outAppend d).fuelBudget = s.fuelBudget := rfl
@[simp] theorem State.outAppend_loaded : (s.outAppend d).loaded = s.loaded := rfl

end outAppend

section retireAt
variable (s : State) (n : Nat)

@[simp] theorem State.retireAt_a : (s.retireAt n).a = s.a := rfl
@[simp] theorem State.retireAt_b : (s.retireAt n).b = s.b := rfl
@[simp] theorem State.retireAt_c : (s.retireAt n).c = s.c := rfl
@[simp] theorem State.retireAt_pc : (s.retireAt n).pc = n := rfl
@[simp] theorem State.retireAt_out : (s.retireAt n).out = s.out := rfl
@[simp] theorem State.retireAt_fuel : (s.retireAt n).fuel = s.fuel - 1 := rfl
@[simp] theorem State.retireAt_status : (s.retireAt n).status = s.status := rfl
@[simp] theorem State.retireAt_cause : (s.retireAt n).cause = s.cause := rfl
@[simp] theorem State.retireAt_prog : (s.retireAt n).prog = s.prog := rfl
@[simp] theorem State.retireAt_len : (s.retireAt n).len = s.len := rfl
@[simp] theorem State.retireAt_fuelBudget : (s.retireAt n).fuelBudget = s.fuelBudget := rfl
@[simp] theorem State.retireAt_loaded : (s.retireAt n).loaded = s.loaded := rfl

end retireAt

section retire
variable (s : State)

@[simp] theorem State.retire_a : (s.retire).a = s.a := rfl
@[simp] theorem State.retire_b : (s.retire).b = s.b := rfl
@[simp] theorem State.retire_c : (s.retire).c = s.c := rfl
@[simp] theorem State.retire_pc : (s.retire).pc = s.pc + 2 := rfl
@[simp] theorem State.retire_out : (s.retire).out = s.out := rfl
@[simp] theorem State.retire_fuel : (s.retire).fuel = s.fuel - 1 := rfl
@[simp] theorem State.retire_status : (s.retire).status = s.status := rfl
@[simp] theorem State.retire_cause : (s.retire).cause = s.cause := rfl
@[simp] theorem State.retire_prog : (s.retire).prog = s.prog := rfl
@[simp] theorem State.retire_len : (s.retire).len = s.len := rfl
@[simp] theorem State.retire_fuelBudget : (s.retire).fuelBudget = s.fuelBudget := rfl
@[simp] theorem State.retire_loaded : (s.retire).loaded = s.loaded := rfl

end retire

section raise
variable (s : State) (x : Condition)

@[simp] theorem State.raise_a : (s.raise x).a = s.a := rfl
@[simp] theorem State.raise_b : (s.raise x).b = s.b := rfl
@[simp] theorem State.raise_c : (s.raise x).c = s.c := rfl
@[simp] theorem State.raise_pc : (s.raise x).pc = s.pc := rfl
@[simp] theorem State.raise_out : (s.raise x).out = s.out := rfl
@[simp] theorem State.raise_fuel : (s.raise x).fuel = s.fuel := rfl
@[simp] theorem State.raise_status : (s.raise x).status = .faulted := rfl
@[simp] theorem State.raise_cause : (s.raise x).cause = some x := rfl
@[simp] theorem State.raise_prog : (s.raise x).prog = s.prog := rfl
@[simp] theorem State.raise_len : (s.raise x).len = s.len := rfl
@[simp] theorem State.raise_fuelBudget : (s.raise x).fuelBudget = s.fuelBudget := rfl
@[simp] theorem State.raise_loaded : (s.raise x).loaded = s.loaded := rfl

end raise

section halt
variable (s : State)

@[simp] theorem State.halt_a : (s.halt).a = s.a := rfl
@[simp] theorem State.halt_b : (s.halt).b = s.b := rfl
@[simp] theorem State.halt_c : (s.halt).c = s.c := rfl
@[simp] theorem State.halt_pc : (s.halt).pc = s.pc := rfl
@[simp] theorem State.halt_out : (s.halt).out = s.out := rfl
@[simp] theorem State.halt_fuel : (s.halt).fuel = s.fuel := rfl
@[simp] theorem State.halt_status : (s.halt).status = .halted := rfl
@[simp] theorem State.halt_cause : (s.halt).cause = s.cause := rfl
@[simp] theorem State.halt_prog : (s.halt).prog = s.prog := rfl
@[simp] theorem State.halt_len : (s.halt).len = s.len := rfl
@[simp] theorem State.halt_fuelBudget : (s.halt).fuelBudget = s.fuelBudget := rfl
@[simp] theorem State.halt_loaded : (s.halt).loaded = s.loaded := rfl

end halt

section withPair
variable (s : State) (opw opd : Nibble)

@[simp] theorem State.withPair_a : (s.withPair opw opd).a = s.a := rfl
@[simp] theorem State.withPair_b : (s.withPair opw opd).b = s.b := rfl
@[simp] theorem State.withPair_c : (s.withPair opw opd).c = s.c := rfl
@[simp] theorem State.withPair_pc : (s.withPair opw opd).pc = s.pc := rfl
@[simp] theorem State.withPair_out : (s.withPair opw opd).out = s.out := rfl
@[simp] theorem State.withPair_fuel : (s.withPair opw opd).fuel = max s.fuel 1 := rfl
@[simp] theorem State.withPair_status : (s.withPair opw opd).status = .running := rfl
@[simp] theorem State.withPair_cause : (s.withPair opw opd).cause = none := rfl
@[simp] theorem State.withPair_prog : (s.withPair opw opd).prog = (s.prog.write s.pc opw).write (s.pc + 1) opd := rfl
@[simp] theorem State.withPair_len : (s.withPair opw opd).len = max s.len (s.pc + 2) := rfl
@[simp] theorem State.withPair_fuelBudget : (s.withPair opw opd).fuelBudget = max s.fuelBudget (max s.fuel 1) := rfl
@[simp] theorem State.withPair_loaded : (s.withPair opw opd).loaded = true := rfl

end withPair

section started
variable (s : State)

@[simp] theorem State.started_a : (startedState s).a = s.a := rfl
@[simp] theorem State.started_b : (startedState s).b = s.b := rfl
@[simp] theorem State.started_c : (startedState s).c = s.c := rfl
@[simp] theorem State.started_pc : (startedState s).pc = 0 := rfl
@[simp] theorem State.started_out : (startedState s).out = [] := rfl
@[simp] theorem State.started_fuel : (startedState s).fuel = s.fuelBudget := rfl
@[simp] theorem State.started_status : (startedState s).status = .running := rfl
@[simp] theorem State.started_cause : (startedState s).cause = none := rfl
@[simp] theorem State.started_prog : (startedState s).prog = s.prog := rfl
@[simp] theorem State.started_len : (startedState s).len = s.len := rfl
@[simp] theorem State.started_fuelBudget : (startedState s).fuelBudget = s.fuelBudget := rfl
@[simp] theorem State.started_loaded : (startedState s).loaded = s.loaded := rfl

end started

section setReg
variable (s : State) (r : Reg) (v : Word)

/-- A register that is written holds the value written. -/
@[simp] theorem State.setReg_reg_same : (s.setReg r v).reg r = v := by cases r <;> rfl

/-- The other registers keep theirs: there are no aliases (spec/10_state.md R12). -/
theorem State.setReg_reg_other (q : Reg) (h : q ≠ r) : (s.setReg r v).reg q = s.reg q := by
  cases r <;> cases q <;> first | rfl | exact absurd rfl h

@[simp] theorem State.setReg_pc : (s.setReg r v).pc = s.pc := by cases r <;> rfl
@[simp] theorem State.setReg_out : (s.setReg r v).out = s.out := by cases r <;> rfl
@[simp] theorem State.setReg_fuel : (s.setReg r v).fuel = s.fuel := by cases r <;> rfl
@[simp] theorem State.setReg_status : (s.setReg r v).status = s.status := by cases r <;> rfl
@[simp] theorem State.setReg_cause : (s.setReg r v).cause = s.cause := by cases r <;> rfl
@[simp] theorem State.setReg_prog : (s.setReg r v).prog = s.prog := by cases r <;> rfl
@[simp] theorem State.setReg_len : (s.setReg r v).len = s.len := by cases r <;> rfl
@[simp] theorem State.setReg_fuelBudget : (s.setReg r v).fuelBudget = s.fuelBudget := by cases r <;> rfl
@[simp] theorem State.setReg_loaded : (s.setReg r v).loaded = s.loaded := by cases r <;> rfl

end setReg

section reg
variable (s : State) (r : Reg)

@[simp] theorem State.outAppend_reg (d : OutWord) : (s.outAppend d).reg r = s.reg r := by cases r <;> rfl
@[simp] theorem State.retireAt_reg (n : Nat) : (s.retireAt n).reg r = s.reg r := by cases r <;> rfl
@[simp] theorem State.retire_reg : s.retire.reg r = s.reg r := by cases r <;> rfl
@[simp] theorem State.raise_reg (x : Condition) : (s.raise x).reg r = s.reg r := by cases r <;> rfl
@[simp] theorem State.halt_reg : s.halt.reg r = s.reg r := by cases r <;> rfl
@[simp] theorem State.started_reg : (startedState s).reg r = s.reg r := by cases r <;> rfl
@[simp] theorem State.reg_a : s.reg .a = s.a := rfl
@[simp] theorem State.reg_b : s.reg .b = s.b := rfl
@[simp] theorem State.reg_c : s.reg .c = s.c := rfl

end reg

/-- A program word depends on the program space and `LEN` alone. -/
theorem State.progWord_congr (s t : State) (i : Nat) (hp : t.prog = s.prog) (hl : t.len = s.len) :
    t.progWord i = s.progWord i := by
  simp only [State.progWord, hp, hl]

end Sys2Proof.Machine
end

