-- ==== Sys2Proof/Laws/HostPort.lean ====
section
/-! SUPPORT. What each host transaction can do, said once. -/

namespace Sys2Proof.Machine

/-- LOAD writes the loaded state or changes nothing (spec/10_state.md R24). -/
theorem load_cases (p : Params) (x : LoadArgs) (s : State) :
    (s.status ≠ .running ∧ loadArgsOk p x = true ∧ load p x s = { accepted := true, state := loadedState x })
      ∨ load p x s = refuse s := by
  unfold load
  split
  · exact .inl ⟨‹_ ∧ _›.1, ‹_ ∧ _›.2, rfl⟩
  · exact .inr rfl

/-- START begins a run or changes nothing (R25). -/
theorem start_cases (s : State) :
    (s.status = .idle ∧ s.loaded = true ∧ start s = { accepted := true, state := startedState s })
      ∨ start s = refuse s := by
  unfold start
  split
  · exact .inl ⟨‹_ ∧ _›.1, ‹_ ∧ _›.2, rfl⟩
  · exact .inr rfl

end Sys2Proof.Machine
end

