-- ==== Sys2Proof/Laws/Ops.lean ====
section
/-! SUPPORT. What each shared operation can do, said once. -/

namespace Sys2Proof.Machine

/-- A fetch gives the words at `pc` and `pc + 1`, in that order (spec/20_memory.md R33, R34). -/
theorem State.fetch_eq_some (s : State) (opw opd : Nibble) :
    s.fetch = some (opw, opd) ↔ s.progWord s.pc = some opw ∧ s.progWord (s.pc + 1) = some opd := by
  unfold State.fetch
  cases s.progWord s.pc <;> cases s.progWord (s.pc + 1) <;> simp

theorem State.progWord_eq_some (s : State) (i : Nat) (w : Nibble) :
    s.progWord i = some w ↔ i < s.len ∧ s.prog.read i = some w := by
  unfold State.progWord
  split <;> simp_all

/-- A combo code either has a value, and is at most 6, or has none, and is at least 7 (40_step_cycle.md R63). -/
theorem combo_cases (k : Nibble) (s : State) :
    (k.toNat ≤ 6 ∧ ∃ v, combo k s = some v) ∨ (7 ≤ k.toNat ∧ combo k s = none) := by
  unfold combo
  split <;> simp_all
  omega

/-- An instruction with a combo operand takes its effect on the operand's value, or raises `InvalidCombo`. -/
theorem withCombo_next (k : Nibble) (s t : State) (f : Word → State) (h : withCombo k s f = .next t) :
    (∃ v, combo k s = some v ∧ t = f v) ∨ (combo k s = none ∧ t = s.raise .invalidCombo) := by
  unfold withCombo at h
  split at h <;> injection h with h
  · exact .inl ⟨_, ‹_›, h.symm⟩
  · exact .inr ⟨‹_›, h.symm⟩

/-- With a value, the effect is taken. -/
theorem withCombo_some (k : Nibble) (s : State) (f : Word → State) (v : Word) (h : combo k s = some v) :
    withCombo k s f = .next (f v) := by
  simp [withCombo, h]

/-- Without one, the condition is raised. -/
theorem withCombo_none (k : Nibble) (s : State) (f : Word → State) (h : combo k s = none) :
    withCombo k s f = .next (s.raise .invalidCombo) := by
  simp [withCombo, h]

/-- The shift family writes the destination and retires, or raises `InvalidCombo`. -/
theorem shiftInto_next (dst : Reg) (k : Nibble) (s t : State) (h : shiftInto dst k s = .next t) :
    (∃ v, combo k s = some v ∧ t = (s.setReg dst (shr64 (s.reg .a) v)).retire)
      ∨ (combo k s = none ∧ t = s.raise .invalidCombo) :=
  withCombo_next k s t _ h

/-- `Jnz` falls through, jumps, or raises `JumpOutOfRange` (43_control.md R80). -/
theorem execJnz_next (lit : Nibble) (s t : State) (h : execJnz lit s = .next t) :
    (s.a = 0 ∧ t = s.retire)
      ∨ (s.a ≠ 0 ∧ jumpTarget lit % 2 = 0 ∧ jumpTarget lit < s.len ∧ t = s.retireAt (jumpTarget lit))
      ∨ (s.a ≠ 0 ∧ (jumpTarget lit % 2 = 1 ∨ s.len ≤ jumpTarget lit) ∧ t = s.raise .jumpOutOfRange) := by
  unfold execJnz at h
  split at h
  · rename_i ha
    have ha' : s.a ≠ 0 := by simpa [jumpTaken] using ha
    split at h
    · rename_i hl
      injection h with h
      simp only [jumpLegal, Bool.and_eq_true, beq_iff_eq, decide_eq_true_eq] at hl
      exact .inr (.inl ⟨ha', hl.1, hl.2, h.symm⟩)
    · rename_i hl
      injection h with h
      simp only [jumpLegal, Bool.and_eq_true, beq_iff_eq, decide_eq_true_eq] at hl
      exact .inr (.inr ⟨ha', by omega, h.symm⟩)
  · rename_i ha
    injection h with h
    exact .inl ⟨by simpa [jumpTaken] using ha, h.symm⟩

/-- One unit of fuel, the program counter, and nothing else. -/
theorem State.retireAt_eq (s : State) (n : Nat) : s.retireAt n = { s with fuel := s.fuel - 1, pc := n } := rfl

end Sys2Proof.Machine
end

