-- ==== Sys2Proof/Laws/PerInstr.lean ====
section
/-! SUPPORT. A statement made per instruction: an instruction with a combo code that is not one (7 or above) is not in
the decoder's range, and its words raise `InvalidCombo`; every instruction's opcode word is below 8. -/

namespace Sys2Proof.Laws.ComboChecked

/-- The opcode word is legal (spec/30_encoding.md R47), and an ill-formed instruction's words fail decoding with
`InvalidCombo` (R52, R53 (a)). -/
def Statement (i : Instr) : Prop :=
  (encode i).1.toNat ≤ 7 ∧
    (i.wellFormed = false → decode (encode i).1 (encode i).2 = .error .invalidCombo)

theorem adv (k : Nibble) : Statement (.adv k) := ⟨by simp [encode], by decide +revert⟩
theorem bxl (lit : Nibble) : Statement (.bxl lit) := ⟨by simp [encode], fun h => nomatch h⟩
theorem bst (k : Nibble) : Statement (.bst k) := ⟨by simp [encode], by decide +revert⟩
theorem jnz (lit : Nibble) : Statement (.jnz lit) := ⟨by simp [encode], fun h => nomatch h⟩
theorem bxc : Statement .bxc := ⟨by simp [encode], fun h => nomatch h⟩
theorem out (k : Nibble) : Statement (.out k) := ⟨by simp [encode], by decide +revert⟩
theorem bdv (k : Nibble) : Statement (.bdv k) := ⟨by simp [encode], by decide +revert⟩
theorem cdv (k : Nibble) : Statement (.cdv k) := ⟨by simp [encode], by decide +revert⟩

end Sys2Proof.Laws.ComboChecked
end

