-- ==== Sys2Proof/Laws/Step.lean ====
section
/-! SUPPORT. What an instruction and a step can do, said once: the inversion lemmas that later proofs cite. -/

namespace Sys2Proof.Machine

/-- Every instruction either raises a condition and changes nothing else, or retires with at most one register write
or one append (spec/40_step_cycle.md R60, points 5 and 6). -/
inductive ExecEffect (s : State) : Instr → State → Prop where
  | comboFault (i : Instr) : i.wellFormed = false → ExecEffect s i (s.raise .invalidCombo)
  | adv (k : Nibble) (v : Word) : combo k s = some v →
      ExecEffect s (.adv k) (s.setReg .a (shr64 s.a v)).retire
  | bxl (lit : Nibble) : ExecEffect s (.bxl lit) (s.setReg .b (s.b ^^^ literal lit)).retire
  | bst (k : Nibble) (v : Word) : combo k s = some v →
      ExecEffect s (.bst k) (s.setReg .b ((mod8 v).setWidth 64)).retire
  | fallThrough (lit : Nibble) : s.a = 0 → ExecEffect s (.jnz lit) s.retire
  | jump (lit : Nibble) : s.a ≠ 0 → jumpTarget lit % 2 = 0 → jumpTarget lit < s.len →
      ExecEffect s (.jnz lit) (s.retireAt (jumpTarget lit))
  | badJump (lit : Nibble) : s.a ≠ 0 → (jumpTarget lit % 2 = 1 ∨ s.len ≤ jumpTarget lit) →
      ExecEffect s (.jnz lit) (s.raise .jumpOutOfRange)
  | bxc : ExecEffect s .bxc (s.setReg .b (s.b ^^^ s.c)).retire
  | out (k : Nibble) (v : Word) : combo k s = some v → ExecEffect s (.out k) (s.outAppend (mod8 v)).retire
  | bdv (k : Nibble) (v : Word) : combo k s = some v →
      ExecEffect s (.bdv k) (s.setReg .b (shr64 s.a v)).retire
  | cdv (k : Nibble) (v : Word) : combo k s = some v →
      ExecEffect s (.cdv k) (s.setReg .c (shr64 s.a v)).retire

/-- A combo code without a value is not a code. -/
theorem comboCodeOk_of_none (k : Nibble) (s : State) (h : combo k s = none) : comboCodeOk k = false := by
  rcases combo_cases k s with ⟨_, v, hv⟩ | ⟨hk, _⟩
  · simp [hv] at h
  · simp only [comboCodeOk, decide_eq_false_iff_not]
    omega

theorem exec_next (i : Instr) (s t : State) (h : exec i s = .next t) : ExecEffect s i t := by
  cases i with
  | adv k =>
    rcases shiftInto_next .a k s t h with ⟨v, hv, rfl⟩ | ⟨hn, rfl⟩
    · exact .adv k v hv
    · exact .comboFault _ (comboCodeOk_of_none k s hn)
  | bxl lit => obtain rfl : _ = t := by injection h
               exact .bxl lit
  | bst k =>
    rcases withCombo_next k s t _ h with ⟨v, hv, rfl⟩ | ⟨hn, rfl⟩
    · exact .bst k v hv
    · exact .comboFault _ (comboCodeOk_of_none k s hn)
  | jnz lit =>
    rcases execJnz_next lit s t h with ⟨ha, rfl⟩ | ⟨ha, he, hl, rfl⟩ | ⟨ha, hb, rfl⟩
    · exact .fallThrough lit ha
    · exact .jump lit ha he hl
    · exact .badJump lit ha hb
  | bxc => obtain rfl : _ = t := by injection h
           exact .bxc
  | out k =>
    rcases withCombo_next k s t _ h with ⟨v, hv, rfl⟩ | ⟨hn, rfl⟩
    · exact .out k v hv
    · exact .comboFault _ (comboCodeOk_of_none k s hn)
  | bdv k =>
    rcases shiftInto_next .b k s t h with ⟨v, hv, rfl⟩ | ⟨hn, rfl⟩
    · exact .bdv k v hv
    · exact .comboFault _ (comboCodeOk_of_none k s hn)
  | cdv k =>
    rcases shiftInto_next .c k s t h with ⟨v, hv, rfl⟩ | ⟨hn, rfl⟩
    · exact .cdv k v hv
    · exact .comboFault _ (comboCodeOk_of_none k s hn)

/-- What a step that answers a next state has done (R60). -/
inductive StepEffect (s : State) : State → Prop where
  | rest : s.status ≠ .running → StepEffect s s
  | halt : s.status = .running → s.len ≤ s.pc → StepEffect s s.halt
  | noFuel : s.status = .running → s.pc < s.len → s.fuel = 0 → StepEffect s (s.raise .fuelExhausted)
  | badPair (opw opd : Nibble) (e : DecodeError) : s.status = .running → s.pc < s.len → s.fuel ≠ 0 →
      s.fetch = some (opw, opd) → decode opw opd = .error e → StepEffect s (s.raise (conditionOf e))
  | exec (opw opd : Nibble) (i : Instr) (t : State) : s.status = .running → s.pc < s.len → s.fuel ≠ 0 →
      s.fetch = some (opw, opd) → decode opw opd = .ok i → Machine.exec i s = .next t → StepEffect s t

theorem step_next (s t : State) (h : step s = .next t) : StepEffect s t := by
  unfold step cycle at h
  split at h
  · rename_i hr
    unfold runningStep at h
    split at h
    · injection h with h
      subst h
      exact .halt hr ‹_›
    · rename_i hpc
      split at h
      · injection h with h
        subst h
        exact .noFuel hr (by omega) ‹_›
      · unfold runPair at h
        split at h
        · cases h
        · rename_i opw opd hf
          split at h
          · injection h with h
            subst h
            exact .badPair opw opd _ hr (by omega) ‹_› hf ‹_›
          · exact .exec opw opd _ t hr (by omega) ‹_› hf ‹_› h
  all_goals
    injection h with h
    subst h
    exact .rest (by simp_all)

end Sys2Proof.Machine
end

