-- ==== Sys2Proof/Tests/Slice0.lean ====
section
/-! SUPPORT. The author's own tests: words written out from spec/30_encoding.md R47 and R48, single steps from the vectors of
spec/95_test_vectors.md (each named), refusals of the loader and of WellFormed, and for every obligation with hypotheses a
concrete case that meets them. -/

namespace Sys2Proof.Tests
open Sys2Proof.Machine

/-- A run just started, as after LOAD and START. -/
def started (words : List Nat) (a b c fuel : Nat) : State :=
  startedState (loadedState { a := a, b := b, c := c, words := words, fuel := fuel })

/-- The state after one step, if the step answers one. -/
def after (s : State) : Option State :=
  match step s with
  | .next t => some t
  | .fault _ => none
  | .refused _ => none

/-- Status and cause after one step. -/
def ended (s : State) : Option (Status × Option Condition) := (after s).map fun t => (t.status, t.cause)

/-! ### Decoding: words written bit by bit from R47 and R48 (opcode word, operand word) -/

theorem test_decode_adv : decode 0b0000 0b0001 = .ok (.adv 1) := by decide
theorem test_decode_bxl : decode 0b0001 0b0111 = .ok (.bxl 7) := by decide
theorem test_decode_bst : decode 0b0010 0b0110 = .ok (.bst 6) := by decide
theorem test_decode_jnz : decode 0b0011 0b1110 = .ok (.jnz 14) := by decide
theorem test_decode_bxc : decode 0b0100 0b1111 = .ok .bxc := by decide
theorem test_decode_out : decode 0b0101 0b0100 = .ok (.out 4) := by decide
theorem test_decode_bdv : decode 0b0110 0b0011 = .ok (.bdv 3) := by decide
theorem test_decode_cdv : decode 0b0111 0b0101 = .ok (.cdv 5) := by decide
/-- R51: [9,7] is `InvalidOpcode`, whatever the operand (vector E4). -/
theorem test_decode_illegal_opcode : decode 0b1001 0b0111 = .error .invalidOpcode := by decide
/-- R52, R53 (vectors A12, A13). -/
theorem test_decode_illegal_combo :
    decode 0 7 = .error .invalidCombo ∧ decode 7 8 = .error .invalidCombo := by decide

/-! ### WellFormed: one ill-formed term for each check -/

theorem test_illFormed_adv : (Instr.adv 7).wellFormed = false := by decide
theorem test_illFormed_bst : (Instr.bst 7).wellFormed = false := by decide
theorem test_illFormed_out : (Instr.out 8).wellFormed = false := by decide
theorem test_illFormed_bdv : (Instr.bdv 15).wellFormed = false := by decide
theorem test_illFormed_cdv : (Instr.cdv 7).wellFormed = false := by decide
/-- D31: odd length; opcode word above 7; operand word above 7; combo 7; `Jnz` to an odd index; `Jnz` to `LEN`. -/
theorem test_illFormed_programs :
    programWellFormed [5, 0, 5] = false ∧ programWellFormed [9, 0] = false ∧ programWellFormed [1, 8] = false
      ∧ programWellFormed [0, 7] = false ∧ programWellFormed [3, 1, 4, 0] = false
      ∧ programWellFormed [3, 2] = false := by decide
/-- Scenario S1's program is well-formed. -/
theorem test_wellFormed_program : programWellFormed [0, 1, 5, 4, 3, 0] = true := by decide

/-! ### Single steps (spec/95_test_vectors.md; the vector's name stands in each docstring) -/

/-- S1, first step: A = 729, `adv 1` gives 364. -/
theorem test_adv_halves :
    (after (started [0, 1, 5, 4, 3, 0] 729 0 0 30)).map (fun t => (t.a, t.pc, t.fuel)) = some (364, 2, 29) := by decide
/-- A10: a shift by 2^64 - 1 gives 0, not A shifted by 63. -/
theorem test_adv_huge_amount :
    (after (started [0, 5] 18446744073709551615 18446744073709551615 0 9)).map (·.a) = some 0 := by decide
/-- B2: 2024, `bdv 3` gives B = 253 and keeps A. -/
theorem test_bdv : (after (started [6, 3] 2024 7 0 9)).map (fun t => (t.a, t.b)) = some (2024, 253) := by decide
/-- B3: the amount is the old B. -/
theorem test_bdv_reads_old_b : (after (started [6, 5] 255 2 0 9)).map (·.b) = some 63 := by decide
/-- C2: 2024 >> 5 = 63 into C, B kept. -/
theorem test_cdv : (after (started [7, 5] 2024 5 0 9)).map (fun t => (t.b, t.c)) = some (5, 63) := by decide
/-- C3: the amount is the old C. -/
theorem test_cdv_reads_old_c : (after (started [7, 6] 256 0 4 9)).map (·.c) = some 16 := by decide
/-- S4: 29 XOR 7 = 26; 7 is a legal literal. -/
theorem test_bxl : (after (started [1, 7] 0 29 0 9)).map (·.b) = some 26 := by decide
/-- L6: the literal 15 is used as it is. -/
theorem test_bxl_fifteen :
    (after (started [1, 15] 0 18446744073709551615 0 9)).map (·.b) = some 0xFFFFFFFFFFFFFFF0 := by decide
/-- T3: (2^64 - 3) mod 8 = 5. -/
theorem test_bst : (after (started [2, 4] 18446744073709551613 0 0 9)).map (·.b) = some 5 := by decide
/-- T4: the upper bits of B are cleared. -/
theorem test_bst_clears : (after (started [2, 5] 0 0x1234 0 9)).map (·.b) = some 4 := by decide
/-- S5 with X1's operand word 7: 2024 XOR 43690 = 44354, no fault. -/
theorem test_bxc : (after (started [4, 7] 0 2024 43690 9)).map (·.b) = some 44354 := by decide
/-- X4: all 64 bits take part. -/
theorem test_bxc_wide :
    (after (started [4, 0] 0 18446744073709551615 0x0F0F0F0F0F0F0F0F 9)).map (·.b) = some 0xF0F0F0F0F0F0F0F0 := by decide
/-- O3: 10 mod 8 = 2. -/
theorem test_out : (after (started [5, 4] 10 0 0 9)).map (fun t => (t.a, t.out)) = some (10, [2]) := by decide
/-- An element is appended after those already there (R16, R44). -/
theorem test_out_appends :
    (after { started [5, 3] 0 0 0 9 with out := [7, 1] }).map (·.out) = some [7, 1, 3] := by decide
/-- J8, first step: taken, pc 0 to 4. -/
theorem test_jnz_taken : (after (started [3, 4, 5, 1, 5, 2] 1 0 0 9)).map (·.pc) = some 4 := by decide
/-- J10 and J2: all 64 bits of A are tested; with A = 0 an odd target is not examined. -/
theorem test_jnz_test :
    (after (started [3, 4, 5, 1, 5, 2] 0x8000000000000000 0 0 9)).map (·.pc) = some 4
      ∧ (after (started [3, 1] 0 0 0 9)).map (·.pc) = some 2 := by decide

/-! ### Faults and halting -/

/-- S7: [9,0] raises `InvalidOpcode` and changes no register. -/
theorem test_fault_opcode :
    after (started [9, 0] 5 6 7 9) = some ((started [9, 0] 5 6 7 9).raise .invalidOpcode) := by decide
/-- A12. -/
theorem test_fault_combo : ended (started [0, 7] 3 0 1 9) = some (.faulted, some .invalidCombo) := by decide
/-- J4, J5, J6: odd target, target LEN, target above LEN. -/
theorem test_fault_jump :
    ended (started [3, 1] 1 0 0 9) = some (.faulted, some .jumpOutOfRange)
      ∧ ended (started [3, 2] 1 0 0 9) = some (.faulted, some .jumpOutOfRange)
      ∧ ended (started [3, 6] 1 0 0 9) = some (.faulted, some .jumpOutOfRange) := by decide
/-- F2, and R95 item 2: without fuel an illegal pair is not looked at. -/
theorem test_fault_fuel :
    ended (started [5, 0] 5 6 7 0) = some (.faulted, some .fuelExhausted)
      ∧ ended (started [9, 0] 5 6 7 0) = some (.faulted, some .fuelExhausted) := by decide
/-- F1 and J11: the empty program halts, with no fuel too. -/
theorem test_halt : ended (started [] 5 6 7 0) = some (.halted, none) := by decide

/-! ### The host's transactions -/

/-- An instance with 4-bit pc, 1000 output elements, 64-bit fuel. -/
def hw : Params where
  pcBits := 4
  pcBits_ge := by decide
  outCap := 1000
  fuelBits := 64

def loadS1 : LoadArgs where
  a := 729
  b := 0
  c := 0
  words := [0, 1, 5, 4, 3, 0]
  fuel := 1000

theorem test_load_start :
    (transact hw .start (transact hw (.load loadS1) State.reset).state).state = started [0, 1, 5, 4, 3, 0] 729 0 0 1000 := by
  decide
/-- Q1, Q2, Q3, and FUEL above OUT_CAP, and a program longer than LEN_MAX = 14: LOAD refused. -/
theorem test_load_refused :
    (transact hw (.load { loadS1 with words := [5, 0, 5] }) State.reset).accepted = false
      ∧ (transact hw (.load { loadS1 with words := [16, 0] }) State.reset).accepted = false
      ∧ (transact hw (.load { loadS1 with a := 18446744073709551616 }) State.reset).accepted = false
      ∧ (transact hw (.load { loadS1 with fuel := 1001 }) State.reset).accepted = false
      ∧ (transact hw (.load { loadS1 with words := List.replicate 16 0 }) State.reset).accepted = false := by decide
/-- Q4: START without a LOAD is refused. -/
theorem test_start_refused : (transact hw .start State.reset).accepted = false := by decide
/-- U2: READBACK before the first LOAD gives no value for A. -/
theorem test_readback_unloaded : (readback State.reset).map (·.a) = some none := by decide

/-! ### A table word placed after reset runs -/

theorem test_withFetchWord :
    after (State.reset.withFetchWord 8 0x53) = some { State.reset.withFetchWord 8 0x53 with out := [3], pc := 2, fuel := 0 } := by
  decide

/-! ### Witnesses: every obligation's hypotheses are met -/

/-- A run of S1's program with fuel, and the same without. -/
abbrev live : State := started [0, 1, 5, 4, 3, 0] 729 0 0 30
abbrev dry : State := started [0, 1, 5, 4, 3, 0] 729 0 0 0

theorem live_inv : live.Inv := by constructor <;> decide

theorem witness_DecodeEncodeRoundTrip :
    (Instr.adv 6).wellFormed = true ∧ (Instr.jnz 15).wellFormed = true := by decide
theorem witness_DecodedPairEncodesBack :
    decode 0 6 = .ok (.adv 6) ∧ Instr.adv 6 ≠ .bxc ∧ decode 4 15 = .ok .bxc := by decide
theorem witness_ComboResolution :
    (3 : Nibble).toNat ≤ 3 ∧ (4 : Nibble).toNat = 4 ∧ (5 : Nibble).toNat = 5 ∧ (6 : Nibble).toNat = 6
      ∧ 7 ≤ (7 : Nibble).toNat := by decide
/-- For `AdvShiftsA`, `BdvShiftsAIntoB`, `CdvShiftsAIntoC`, `BstKeepsLowThreeBits`, `OutAppendsDigit`: both sides of the
boundary between 6 and 7, and a state without fuel. -/
theorem witness_combo_instructions :
    (6 : Nibble).toNat ≤ 6 ∧ live.fuel ≠ 0 ∧ 7 ≤ (7 : Nibble).toNat
      ∧ dry.status = .running ∧ dry.pc < dry.len ∧ dry.fuel = 0 := by decide
/-- The code 7 as a pair that is due, for each of the five opcodes. -/
theorem witness_combo_instructions_illegal :
    ∀ op ∈ [0, 2, 5, 6, 7],
      (started [op, 7] 0 0 0 9).status = .running ∧ (started [op, 7] 0 0 0 9).pc < (started [op, 7] 0 0 0 9).len
        ∧ (started [op, 7] 0 0 0 9).fuel ≠ 0 ∧ (started [op, 7] 0 0 0 9).progWord 0 = some (BitVec.ofNat 4 op)
        ∧ (started [op, 7] 0 0 0 9).progWord 1 = some 7 := by decide
theorem witness_IllFormedTermRaisesInvalidCombo : (Instr.adv 7).wellFormed = false := by decide
/-- The last clause of `OutAppendsDigit`. -/
theorem witness_OutAppendsDigit_others :
    (∃ t, exec (.adv 1) live = .next t) ∧ ∀ j, Instr.adv 1 ≠ .out j := ⟨⟨_, rfl⟩, fun _ h => nomatch h⟩
theorem witness_BxlXorsLiteral :
    live.fuel ≠ 0 ∧ (7 : Nibble).toNat ≤ 7 ∧ 3 ≤ 3 ∧ dry.status = .running ∧ dry.pc < dry.len ∧ dry.fuel = 0 := by decide
theorem witness_BxcXorsC : live.fuel ≠ 0 := by decide
/-- A = 0; the largest legal target 4 of a program of 6 words; the targets 5 (odd) and 6 (`LEN`). -/
theorem witness_JnzJumpsOrFallsThrough :
    live.fuel ≠ 0 ∧ (started [3, 0] 0 0 0 9).a = 0 ∧ live.a ≠ 0
      ∧ ((4 : Nibble).toNat % 2 = 0 ∧ (4 : Nibble).toNat < live.len)
      ∧ (5 : Nibble).toNat % 2 = 1 ∧ live.len ≤ (6 : Nibble).toNat := by decide
theorem witness_InstructionFrame :
    (∃ t, exec (.cdv 6) live = .next t) ∧ (Instr.cdv 6).writes ≠ some .b ∧ ∀ k, Instr.cdv 6 ≠ .out k :=
  ⟨⟨_, rfl⟩, by decide, fun _ h => nomatch h⟩
theorem witness_RegisterAccessTable :
    (Instr.bst 5).wellFormed = true ∧ (∃ t, exec (.bst 5) live = .next t)
      ∧ (Instr.bst 5).writes ≠ some .c ∧ (Instr.bst 5).reads .c = false ∧ (Instr.bst 4).reads .b = false
      ∧ (Instr.bst 4).writes = some .b :=
  ⟨by decide, ⟨_, rfl⟩, by decide, by decide, by decide, by decide⟩
theorem witness_ProgramCounterUpdate :
    ((∃ t, exec (.adv 1) live = .next t ∧ t.status = .running) ∧ ∀ l, Instr.adv 1 ≠ .jnz l)
      ∧ (∃ t, exec (.jnz 4) live = .next t ∧ t.status = .running)
      ∧ live.status = .running ∧ live.len % 2 = 0 ∧ live.pc % 2 = 0 ∧ live.pc < live.len :=
  ⟨⟨⟨_, rfl, rfl⟩, fun _ h => nomatch h⟩, ⟨_, rfl, rfl⟩, by decide⟩
/-- For `StepRunsDecodedInstruction`, `InvalidOpcodeRule`, `InvalidComboRule`. -/
theorem witness_StepRunsDecodedInstruction :
    live.status = .running ∧ live.pc < live.len ∧ live.fuel ≠ 0 ∧ live.progWord live.pc = some 0
      ∧ live.progWord (live.pc + 1) = some 1 ∧ decode 0 1 = .ok (.adv 1) := by decide
/-- Opcode words 7 and 8; combo operands 6 and 7. -/
theorem witness_decode_faults :
    (started [8, 0] 0 0 0 9).progWord 0 = some 8 ∧ (started [8, 0] 0 0 0 9).progWord 1 = some 0
      ∧ 7 < (8 : Nibble).toNat ∧ ¬ 7 < (7 : Nibble).toNat
      ∧ (started [7, 7] 0 0 0 9).progWord 0 = some 7 ∧ (started [7, 7] 0 0 0 9).progWord 1 = some 7
      ∧ (7 : Nibble).toNat ∈ [0, 2, 5, 6, 7] ∧ 7 ≤ (7 : Nibble).toNat ∧ ¬ 7 ≤ (6 : Nibble).toNat := by decide
theorem witness_PlacedWordIsRun : decodeTableWord 8 0x76 = some (.cdv 6) := by decide
/-- An empty program halts at once; the last pair of a program leads to `LEN`; a halted run can be loaded again. -/
theorem witness_HaltRule :
    ((started [] 0 0 0 0).status = .running ∧ (started [] 0 0 0 0).len ≤ (started [] 0 0 0 0).pc)
      ∧ (∃ t, step (started [] 0 0 0 0) = .next t ∧ t.status = .halted)
      ∧ (∃ t, step (started [5, 0] 0 0 0 1) = .next t ∧ (started [5, 0] 0 0 0 1).len ≤ t.pc)
      ∧ (transact hw (.load loadS1) (started [] 0 0 0 0).halt).state ≠ (started [] 0 0 0 0).halt :=
  ⟨by decide, ⟨_, rfl, rfl⟩, ⟨_, rfl, by decide⟩, by decide⟩
/-- For `FuelExhaustedRule` and `FaultsArePrecise`. -/
theorem witness_FuelExhaustedRule :
    dry.status = .running ∧ dry.pc < dry.len ∧ dry.fuel = 0
      ∧ ∃ t, step dry = .next t ∧ t.status = .faulted ∧ t.cause = some .fuelExhausted :=
  ⟨by decide, by decide, by decide, _, rfl, rfl, rfl⟩
/-- A taken jump to `LEN`, and the same pair with A = 0. -/
theorem witness_JumpOutOfRangeRule :
    ((started [3, 2] 1 0 0 9).progWord 0 = some 3 ∧ (started [3, 2] 1 0 0 9).progWord 1 = some 2
        ∧ (started [3, 2] 1 0 0 9).a ≠ 0 ∧ (started [3, 2] 1 0 0 9).len ≤ (2 : Nibble).toNat)
      ∧ (started [3, 2] 0 0 0 9).a = 0
      ∧ ∃ t, step (started [3, 2] 1 0 0 9) = .next t ∧ t.status = .faulted ∧ t.cause = some .jumpOutOfRange :=
  ⟨by decide, by decide, _, rfl, rfl, rfl⟩
theorem witness_EndedRunsStayEnded :
    State.reset.status ≠ .running ∧ live.halt.status = .halted ∧ (live.raise .invalidCombo).status = .faulted := by decide
theorem witness_FuelCharge :
    live.status = .running ∧ (∃ t, step live = .next t ∧ t.status = .running)
      ∧ ∃ t, step dry = .next t ∧ t.status ≠ .running :=
  ⟨by decide, ⟨_, rfl, rfl⟩, _, rfl, by decide⟩
theorem witness_OutputGrowsAtItsEnd :
    (started [5, 6] 0 0 9 9).status = .running ∧ (started [5, 6] 0 0 9 9).fuel ≠ 0
      ∧ (started [5, 6] 0 0 9 9).progWord 0 = some 5 ∧ (started [5, 6] 0 0 9 9).progWord 1 = some 6
      ∧ decode 5 6 = .ok (.out 6) ∧ (∃ t, step (started [5, 6] 0 0 9 9) = .next t)
      ∧ ∃ r, readback State.reset = some r :=
  ⟨by decide, by decide, by decide, by decide, by decide, ⟨_, rfl⟩, _, rfl⟩
theorem witness_ProgramIsImmutable :
    (∃ t, step live = .next t) ∧ Transaction.load loadS1 ≠ .reset
      ∧ (transact hw (.load loadS1) State.reset).state.prog ≠ State.reset.prog :=
  ⟨⟨_, rfl⟩, by decide, by decide⟩
theorem witness_FetchReturnsTheLoadedWord :
    (transact hw (.load loadS1) State.reset).accepted = true ∧ loadS1.words[5]? = some 0
      ∧ ∃ t : State, Host.Core.run core 1 (transact hw .start (transact hw (.load loadS1) State.reset).state).state = .next t :=
  ⟨by decide, by decide, _, rfl⟩
/-- Another program with the same first pair. -/
theorem witness_StepSeesOnlyItsPair :
    Memory.read (Memory.ofWords [0, 1, 9, 9]) live.pc = live.prog.read live.pc
      ∧ Memory.read (Memory.ofWords [0, 1, 9, 9]) (live.pc + 1) = live.prog.read (live.pc + 1)
      ∧ ∃ t, step live = .next t := ⟨by decide, by decide, _, rfl⟩
/-- A run that halts with fuel 1, and a larger amount. -/
theorem witness_MoreFuelSameResult :
    1 ≤ 5 ∧ ∃ t : State, Host.Core.run core 2 { started [5, 0] 0 0 0 9 with fuel := 1 } = .next t ∧ t.status = .halted :=
  ⟨by decide, _, rfl, rfl⟩
/-- For `OutputIsNeverRead`, `StepKeepsInv`, `TransactionsKeepInv`, `StepNeverStops`, `RunEndsWithinFuel`. -/
theorem witness_StepKeepsInv : live.Inv ∧ live.status = .running ∧ ∃ t, step live = .next t :=
  ⟨live_inv, by decide, _, rfl⟩
/-- A run under way, whose step answers a next state, on the smallest `PC_BITS`. -/
theorem witness_StepAndTransactionsKeepFit : live.Fits hw ∧ ∃ t, step live = .next t :=
  ⟨⟨live_inv, by decide, by decide, by decide⟩, _, rfl⟩
/-- A reachable state in which a run is under way. -/
theorem witness_ReachableStatesFitTheHardware :
    Reachable hw (started [0, 1, 5, 4, 3, 0] 729 0 0 1000)
      ∧ (started [0, 1, 5, 4, 3, 0] 729 0 0 1000).pc < (started [0, 1, 5, 4, 3, 0] 729 0 0 1000).len := by
  refine ⟨?_, by decide⟩
  rw [← test_load_start]
  exact .host .start _ (.host (.load loadS1) _ .reset)
/-- A well-formed program that runs out of fuel at once. -/
theorem witness_WellFormedProgramsOnlyRunOutOfFuel :
    programWellFormed [0, 1, 5, 4, 3, 0] = true ∧ dry.prog = Memory.ofWords [0, 1, 5, 4, 3, 0]
      ∧ dry.len = [0, 1, 5, 4, 3, 0].length ∧ dry.pc % 2 = 0 ∧ dry.status = .running
      ∧ ∃ t : State, Host.Core.run core 1 dry = .next t ∧ t.status = .faulted :=
  ⟨by decide, by decide, by decide, by decide, by decide, _, rfl, rfl⟩
/-- LOAD accepted at the boundary values of its preconditions (A = 2^64 - 1, a word 15, FUEL = OUT_CAP, LEN = LEN_MAX), and refused
just beyond each (`test_load_refused`). -/
theorem witness_LoadEffect :
    (transact hw (.load { a := 18446744073709551615, b := 0, c := 0, words := List.replicate 14 15, fuel := 1000 })
      State.reset).accepted = true := by decide
theorem witness_StartEffect :
    (transact hw (.load loadS1) State.reset).state.status = .idle
      ∧ (transact hw (.load loadS1) State.reset).state.loaded = true
      ∧ live.status ≠ .idle ∧ State.reset.loaded = false := by decide
theorem witness_ReadbackReturnsTheState :
    live.status = .running ∧ live.halt.status ≠ .running ∧ live.halt.loaded = true ∧ State.reset.loaded = false := by decide
theorem witness_EveryRunStartsClean :
    (transact hw (.load loadS1) State.reset).accepted = true ∧ (transact hw (.load loadS1) live.halt).accepted = true
      ∧ live.halt.status = .halted := by decide
theorem witness_RunResults :
    State.reset.Inv ∧ ((started [] 0 0 0 0).halt.Inv ∧ (started [] 0 0 0 0).halt.status = .halted)
      ∧ (dry.raise .fuelExhausted).Inv ∧ (dry.raise .fuelExhausted).status = .faulted := by
  refine ⟨?_, ⟨?_, rfl⟩, ?_, rfl⟩ <;> constructor <;> decide

end Sys2Proof.Tests
end

section
/-! SUPPORT. A register write commutes with every other state operation, and an instruction's effect is all that `exec`
answers: the layer under the register table of spec/10_state.md R11. -/

namespace Sys2Proof.Machine

section setReg
variable (s : State) (r : Reg) (v : Word)

/-- The later of two writes to one register stands. -/
@[simp] theorem State.setReg_setReg_same (w : Word) : (s.setReg r v).setReg r w = s.setReg r w := by
  cases r <;> rfl

/-- Writes to two registers commute: there are no aliases (R12). -/
theorem State.setReg_comm (q : Reg) (w : Word) (h : q ≠ r) :
    (s.setReg r v).setReg q w = (s.setReg q w).setReg r v := by
  cases r with
  | a => cases q with
    | a => contradiction
    | b | c => rfl
  | b => cases q with
    | b => contradiction
    | a | c => rfl
  | c => cases q with
    | c => contradiction
    | a | b => rfl

theorem State.retireAt_setReg (n : Nat) : (s.setReg r v).retireAt n = (s.retireAt n).setReg r v := by
  cases r <;> rfl

theorem State.retire_setReg : (s.setReg r v).retire = s.retire.setReg r v := by
  cases r <;> rfl

theorem State.outAppend_setReg (d : OutWord) : (s.setReg r v).outAppend d = (s.outAppend d).setReg r v := by
  cases r <;> rfl

theorem State.raise_setReg (x : Condition) : (s.setReg r v).raise x = (s.raise x).setReg r v := by
  cases r <;> rfl

/-- A write to `r` that retires keeps every other register. -/
theorem State.retire_setReg_reg_other (q : Reg) (h : some r ≠ some q) : (s.setReg r v).retire.reg q = s.reg q := by
  rw [State.retire_reg, State.setReg_reg_other s r v q fun hq => h (congrArg some hq.symm)]

/-- A write to `dst` that retires overwrites what was put into `dst` before, and carries along what was put into
another register. -/
theorem State.retire_setReg_setReg (dst : Reg) (w : Word) :
    ((s.setReg r v).setReg dst w).retire
      = if some dst = some r then (s.setReg dst w).retire else (s.setReg dst w).retire.setReg r v := by
  split
  case isTrue h =>
    obtain rfl : dst = r := Option.some.inj h
    rw [State.setReg_setReg_same]
  case isFalse h =>
    rw [State.setReg_comm s r v dst w fun hq => h (congrArg some hq), State.retire_setReg]

/-- The value of a combo operand depends only on the register its code selects (40_step_cycle.md R63). -/
theorem combo_setReg (k : Nibble) (h : comboReads k r = false) : combo k (s.setReg r v) = combo k s := by
  have selected_kept (q : Reg) (hq : comboReads k q = true) : (s.setReg r v).reg q = s.reg q :=
    State.setReg_reg_other s r v q fun hqr => by simp [hqr, h] at hq
  unfold combo
  split
  case h_5 hk => exact congrArg some (selected_kept .a (by simp [comboReads, hk]))
  case h_6 hk => exact congrArg some (selected_kept .b (by simp [comboReads, hk]))
  case h_7 hk => exact congrArg some (selected_kept .c (by simp [comboReads, hk]))
  all_goals rfl

end setReg

/-- A code that is none has no value, in any state. -/
theorem combo_eq_none (k : Nibble) (s : State) (h : comboCodeOk k = false) : combo k s = none := by
  rcases combo_cases k s with ⟨hk, _⟩ | ⟨_, hn⟩
  · simp [comboCodeOk, hk] at h
  · exact hn

/-- An ill-formed term raises `InvalidCombo` (notes/assumptions/18.md). -/
theorem exec_of_illFormed (i : Instr) (s : State) (h : i.wellFormed = false) :
    exec i s = .next (s.raise .invalidCombo) := by
  cases i with
  | adv k | bst k | out k | bdv k | cdv k => exact withCombo_none k s _ (combo_eq_none k s h)
  | bxl | jnz | bxc => cases h

/-- `exec` takes the effect it can take: the converse of `exec_next`. -/
theorem ExecEffect.exec_eq {i : Instr} {s t : State} (h : ExecEffect s i t) : exec i s = .next t := by
  cases h with
  | comboFault _ hi => exact exec_of_illFormed i s hi
  | adv k v hv | bst k v hv | out k v hv | bdv k v hv | cdv k v hv => exact withCombo_some k s _ v hv
  | bxl | bxc => rfl
  | fallThrough lit ha => simp [exec, execJnz, jumpTaken, ha]
  | jump lit ha he hl =>
    have htaken : jumpTaken s = true := bne_iff_ne.mpr ha
    simp [exec, execJnz, htaken, jumpLegal, he, hl]
  | badJump lit ha hb =>
    have htaken : jumpTaken s = true := bne_iff_ne.mpr ha
    have hillegal : jumpLegal s (jumpTarget lit) = false := by
      simp only [jumpLegal, Bool.and_eq_false_iff, beq_eq_false_iff_ne, decide_eq_false_iff_not]
      omega
    simp [exec, execJnz, htaken, hillegal]

end Sys2Proof.Machine
end

section
/-! SUPPORT. The register table of spec/10_state.md R11: what an instruction's effect leaves in a register it does not
write, and what it cannot see of a register it does not read. -/

namespace Sys2Proof.Machine

/-- The writes column: every other register keeps its value. -/
theorem ExecEffect.reg_of_not_writes {i : Instr} {s t : State} (h : ExecEffect s i t) (r : Reg)
    (hw : i.writes ≠ some r) : t.reg r = s.reg r := by
  cases h with
  | adv | bxl | bst | bxc | bdv | cdv => exact State.retire_setReg_reg_other s _ _ r hw
  | out k v => rw [State.retire_reg, State.outAppend_reg]
  | fallThrough => exact State.retire_reg s r
  | jump lit => exact State.retireAt_reg s r _
  | comboFault | badJump => exact State.raise_reg s r _

/-- The reads column: with another value in a register that a well-formed instruction does not read, the same effect is
taken, and the value is overwritten or carried along. -/
theorem ExecEffect.setReg_of_not_reads {i : Instr} {s t : State} (h : ExecEffect s i t) (r : Reg) (v : Word)
    (hi : i.wellFormed = true) (hr : i.reads r = false) :
    ExecEffect (s.setReg r v) i (if i.writes = some r then t else t.setReg r v) := by
  have reg_kept (q : Reg) (hq : r ≠ q) : (s.setReg r v).reg q = s.reg q := State.setReg_reg_other s r v q hq.symm
  cases h with
  | comboFault _ hbad => simp [hbad] at hi
  | adv k w hk | bdv k w hk | cdv k w hk =>
    obtain ⟨hra, hrk⟩ : r ≠ .a ∧ comboReads k r = false := by simpa [Instr.reads] using hr
    have ha : (s.setReg r v).a = s.a := reg_kept .a hra
    have hk' : combo k (s.setReg r v) = some w := (combo_setReg s r v k hrk).trans hk
    rw [Instr.writes, ← State.retire_setReg_setReg, ← ha]
    constructor
    exact hk'
  | bst k w hk =>
    rw [Instr.writes, ← State.retire_setReg_setReg]
    exact .bst k w ((combo_setReg s r v k hr).trans hk)
  | bxl lit =>
    have hb : (s.setReg r v).b = s.b := reg_kept .b (by simpa [Instr.reads] using hr)
    rw [Instr.writes, ← State.retire_setReg_setReg, ← hb]
    exact .bxl lit
  | bxc =>
    obtain ⟨hrb, hrc⟩ : r ≠ .b ∧ r ≠ .c := by simpa [Instr.reads] using hr
    have hb : (s.setReg r v).b = s.b := reg_kept .b hrb
    have hc : (s.setReg r v).c = s.c := reg_kept .c hrc
    rw [Instr.writes, ← State.retire_setReg_setReg, ← hb, ← hc]
    exact .bxc
  | out k w hk =>
    have h' := ExecEffect.out k w ((combo_setReg s r v k hr).trans hk)
    rwa [State.outAppend_setReg, State.retire_setReg] at h'
  | fallThrough lit ha =>
    have ha' : (s.setReg r v).a = s.a := reg_kept .a (by simpa [Instr.reads] using hr)
    have h' := ExecEffect.fallThrough lit (ha'.trans ha)
    rwa [State.retire_setReg] at h'
  | jump lit ha he hl =>
    have ha' : (s.setReg r v).a = s.a := reg_kept .a (by simpa [Instr.reads] using hr)
    have h' := ExecEffect.jump lit (ha' ▸ ha) he ((State.setReg_len s r v).symm ▸ hl)
    rwa [State.retireAt_setReg] at h'
  | badJump lit ha hb =>
    have ha' : (s.setReg r v).a = s.a := reg_kept .a (by simpa [Instr.reads] using hr)
    have h' := ExecEffect.badJump lit (ha' ▸ ha) ((State.setReg_len s r v).symm ▸ hb)
    rwa [State.raise_setReg] at h'

/-- Settles O19: the two columns, each read off the instruction's effect. -/
theorem registerAccessTable : Obligations.RegisterAccessTable := by
  intro i s t r v hi hexec
  have heffect := exec_next i s t hexec
  exact ⟨heffect.reg_of_not_writes r, fun hr => (heffect.setReg_of_not_reads r v hi hr).exec_eq⟩

end Sys2Proof.Machine
end

section
/-! SUPPORT. What the decoder's answer says of the two words, and what a step does with a pair it can fetch and decode:
the converse of `step_next`'s last case. -/

namespace Sys2Proof

/-- A decoded instruction's opcode word is the one the encoder writes, and its combo code was checked
(spec/30_encoding.md R47, R52, R56). -/
theorem decode_ok (opw opd : Nibble) (i : Instr) (h : decode opw opd = .ok i) :
    opw = (encode i).1 ∧ i.wellFormed = true := by
  unfold decode at h
  split at h
  case h_1 hw | h_3 hw | h_6 hw | h_7 hw | h_8 hw =>
    obtain ⟨hcode, rfl⟩ := withComboCode_ok _ _ _ h
    exact ⟨BitVec.eq_of_toNat_eq hw, hcode⟩
  case h_2 hw | h_4 hw | h_5 hw =>
    injection h with h
    subst h
    exact ⟨BitVec.eq_of_toNat_eq hw, rfl⟩
  case h_9 => cases h

end Sys2Proof

namespace Sys2Proof.Machine

/-- With fuel left, a pair that decodes is executed (40_step_cycle.md R60, points 2 to 5). -/
theorem step_eq_exec (s : State) (opw opd : Nibble) (i : Instr) (hrun : s.status = .running) (hfuel : s.fuel ≠ 0)
    (hfetch : s.fetch = some (opw, opd)) (hdecode : decode opw opd = .ok i) : step s = exec i s := by
  obtain ⟨hword, _⟩ := (s.fetch_eq_some opw opd).mp hfetch
  obtain ⟨hlt, _⟩ := (s.progWord_eq_some s.pc opw).mp hword
  have hpc : ¬ s.len ≤ s.pc := Nat.not_le.mpr hlt
  simp [step, cycle, runningStep, runPair, hrun, hpc, hfuel, hfetch, hdecode]

end Sys2Proof.Machine
end

section
/-! SUPPORT. The output stream under an instruction, a step and READBACK (spec/20_memory.md R44, 44_output.md R86). -/

namespace Sys2Proof.Machine

/-- `Out` appends the low three bits of its operand's value; every other effect leaves the stream alone. -/
theorem ExecEffect.out_cases {i : Instr} {s t : State} (h : ExecEffect s i t) :
    t.out = s.out ∨ ∃ k v, i = .out k ∧ combo k s = some v ∧ t.out = s.out ++ [mod8 v] := by
  cases h with
  | comboFault | badJump => exact .inl (State.raise_out s _)
  | fallThrough => exact .inl (State.retire_out s)
  | jump => exact .inl (State.retireAt_out s _)
  | adv | bxl | bst | bxc | bdv | cdv => exact .inl (by rw [State.retire_out, State.setReg_out])
  | out k v hv => exact .inr ⟨k, v, rfl, hv, by rw [State.retire_out, State.outAppend_out]⟩

/-- A decoded `Out` has a combo code, so it appends. -/
theorem ExecEffect.out_of_wellFormed {k : Nibble} {s t : State} (h : ExecEffect s (.out k) t)
    (hk : (Instr.out k).wellFormed = true) : ∃ v, combo k s = some v ∧ t.out = s.out ++ [mod8 v] := by
  cases h with
  | comboFault _ hbad => simp [hbad] at hk
  | out _ v hv => exact ⟨v, hv, by rw [State.retire_out, State.outAppend_out]⟩

/-- A step leaves the stream alone, or the pair it fetched is an `Out` and appends its digit. -/
theorem StepEffect.out_cases {s t : State} (h : StepEffect s t) :
    t.out = s.out ∨ ∃ opd k v, s.status = .running ∧ s.fetch = some (5, opd) ∧ decode 5 opd = .ok (.out k)
      ∧ combo k s = some v ∧ t.out = s.out ++ [mod8 v] := by
  cases h with
  | rest => exact .inl rfl
  | halt => exact .inl (State.halt_out s)
  | noFuel | badPair => exact .inl (State.raise_out s _)
  | exec opw opd i _ hrun _ _ hfetch hdecode hexec =>
    rcases (exec_next i s t hexec).out_cases with hsame | ⟨k, v, rfl, hv, hout⟩
    · exact .inl hsame
    · obtain ⟨rfl, _⟩ := decode_ok opw opd _ hdecode
      exact .inr ⟨opd, k, v, hrun, hfetch, hdecode, hv, hout⟩

/-- READBACK returns the stream as it stands (10_state.md R26). -/
theorem readback_out (s : State) (r : Readback) (h : readback s = some r) : r.out = s.out := by
  unfold readback at h
  split at h
  · cases h
  · injection h with h
    subst h
    rfl

/-- The digit of R86, written as a remainder (R5). -/
theorem mod8_eq_ofNat (v : Word) : mod8 v = BitVec.ofNat 3 (v.toNat % 8) := by
  apply BitVec.eq_of_toNat_eq
  simp [mod8]

/-- Settles O31: the stream's cases of a step, and the effect of an executed `Out`. -/
theorem outputGrowsAtItsEnd : Obligations.OutputGrowsAtItsEnd := by
  refine ⟨fun s t hstep => ?_, fun s opd k t hrun hfuel hopw hopd hdecode hstep => ?_, readback_out⟩
  · rcases (step_next s t hstep).out_cases with hsame | ⟨opd, k, v, hrun, hfetch, hdecode, hv, hout⟩
    · exact .inl hsame
    · obtain ⟨hopw, hopd⟩ := (s.fetch_eq_some 5 opd).mp hfetch
      exact .inr ⟨opd, k, v, hrun, hopw, hopd, hdecode, hv, mod8_eq_ofNat v ▸ hout⟩
  · have hfetch : s.fetch = some (5, opd) := (s.fetch_eq_some 5 opd).mpr ⟨hopw, hopd⟩
    rw [step_eq_exec s 5 opd (.out k) hrun hfuel hfetch hdecode] at hstep
    obtain ⟨_, hwf⟩ := decode_ok 5 opd _ hdecode
    obtain ⟨v, _, hout⟩ := (exec_next _ s t hstep).out_of_wellFormed hwf
    exact ⟨mod8 v, hout⟩

end Sys2Proof.Machine
end

section
/-! SUPPORT. The program space under an instruction, a step, a run and a host transaction (spec/20_memory.md R31, R42). -/

namespace Sys2Proof.Machine

/-- No instruction stores into the program space. -/
theorem ExecEffect.program_kept {i : Instr} {s t : State} (h : ExecEffect s i t) : t.prog = s.prog ∧ t.len = s.len := by
  cases h with
  | comboFault | badJump => exact ⟨State.raise_prog s _, State.raise_len s _⟩
  | fallThrough => exact ⟨State.retire_prog s, State.retire_len s⟩
  | jump => exact ⟨State.retireAt_prog s _, State.retireAt_len s _⟩
  | adv | bxl | bst | bxc | bdv | cdv =>
    rw [State.retire_prog, State.retire_len]
    exact ⟨State.setReg_prog s _ _, State.setReg_len s _ _⟩
  | out k v =>
    rw [State.retire_prog, State.retire_len]
    exact ⟨State.outAppend_prog s _, State.outAppend_len s _⟩

theorem StepEffect.program_kept {s t : State} (h : StepEffect s t) : t.prog = s.prog ∧ t.len = s.len := by
  cases h with
  | rest => exact ⟨rfl, rfl⟩
  | halt => exact ⟨State.halt_prog s, State.halt_len s⟩
  | noFuel | badPair => exact ⟨State.raise_prog s _, State.raise_len s _⟩
  | exec _ _ i _ _ _ _ _ _ hexec => exact (exec_next i s t hexec).program_kept

/-- A run of `n + 1` steps that stops nowhere is a step and a run of `n`. -/
theorem run_succ_next (M : Host.Core) (n : Nat) (s t : M.State) (h : M.run (n + 1) s = .next t) :
    ∃ u, M.step s = .next u ∧ M.run n u = .next t := by
  rw [Host.Core.run] at h
  split at h
  case h_1 u hstep => exact ⟨u, hstep, h⟩
  case h_2 | h_3 => cases h

/-- What every step keeps, every run keeps. -/
theorem run_keeps (P : State → Prop) (hkeep : ∀ s t, step s = .next t → P s → P t) (n : Nat) (s t : State)
    (hs : P s) (hrun : Host.Core.run core n s = .next t) : P t := by
  induction n generalizing s with
  | zero =>
    injection hrun with hrun
    exact hrun ▸ hs
  | succ n ih =>
    obtain ⟨u, hstep, hrest⟩ := run_succ_next core n s t hrun
    exact ih u (hkeep s u hstep hs) hrest

theorem run_program_kept (n : Nat) (s t : State) (h : Host.Core.run core n s = .next t) :
    t.prog = s.prog ∧ t.len = s.len := by
  refine run_keeps (fun u => u.prog = s.prog ∧ u.len = s.len) (fun u v hstep ⟨hprogU, hlenU⟩ => ?_) n s t ⟨rfl, rfl⟩ h
  obtain ⟨hprog, hlen⟩ := (step_next u v hstep).program_kept
  exact ⟨hprog.trans hprogU, hlen.trans hlenU⟩

theorem start_program_kept (s : State) : (start s).state.prog = s.prog ∧ (start s).state.len = s.len := by
  rcases start_cases s with ⟨_, _, hstart⟩ | hrefused
  · rw [hstart]
    exact ⟨State.started_prog s, State.started_len s⟩
  · rw [hrefused]
    exact ⟨rfl, rfl⟩

/-- A LOAD during a run is refused; the other transactions but RESET write nothing of the program (10_state.md R24 to
R28). -/
theorem transact_program_kept (p : Params) (x : Transaction) (s : State) (hreset : x ≠ .reset)
    (hother : s.status = .running ∨ ∀ args, x ≠ .load args) :
    (transact p x s).state.prog = s.prog ∧ (transact p x s).state.len = s.len := by
  cases x with
  | load args =>
    rcases load_cases p args s with ⟨hidle, _, _⟩ | hrefused
    · exact (hother.elim hidle fun hno => hno args rfl).elim
    · rw [transact, hrefused]
      exact ⟨rfl, rfl⟩
  | start => exact start_program_kept s
  | readback => exact ⟨rfl, rfl⟩
  | reset => exact absurd rfl hreset

/-- Settles O32: what a step keeps, and the contrapositive of what a transaction keeps. -/
theorem programIsImmutable : Obligations.ProgramIsImmutable := by
  refine ⟨fun s t hstep => ?_, fun p x s hreset hchanged => ?_⟩
  · obtain ⟨hprog, hlen⟩ := (step_next s t hstep).program_kept
    exact ⟨fun n => State.progWord_congr s t n hprog hlen, hprog, hlen⟩
  · by_contra hnot
    have hother : s.status = .running ∨ ∀ args, x ≠ .load args := by
      simpa only [not_and_or, not_not, not_exists] using hnot
    obtain ⟨hprog, hlen⟩ := transact_program_kept p x s hreset hother
    exact hchanged.elim (· hprog) (· hlen)

/-- An accepted LOAD leaves the loaded state, and its arguments met the loader's preconditions (10_state.md R24). -/
theorem load_accepted (p : Params) (x : LoadArgs) (s : State) (h : (load p x s).accepted = true) :
    loadArgsOk p x = true ∧ (load p x s).state = loadedState x := by
  rcases load_cases p x s with ⟨_, hok, hload⟩ | hrefused
  · rw [hload]
    exact ⟨hok, rfl⟩
  · rw [hrefused] at h
    cases h

/-- The loader admits only words of four bits (10_state.md R24). -/
theorem loadArgsOk_word_lt (p : Params) (x : LoadArgs) (w : Nat) (h : loadArgsOk p x = true) (hw : w ∈ x.words) :
    w < 16 := by
  simp only [loadArgsOk, Bool.and_eq_true, List.all_eq_true, decide_eq_true_eq] at h
  obtain ⟨⟨⟨_, hwords⟩, _⟩, _⟩ := h
  exact hwords w hw

/-- `prog[i]` after LOAD is `words[i]` (10_state.md R24). -/
theorem loadedState_progWord (x : LoadArgs) (i w : Nat) (h : x.words[i]? = some w) :
    (loadedState x).progWord i = some (BitVec.ofNat 4 w) := by
  obtain ⟨hi, _⟩ := List.getElem?_eq_some_iff.mp h
  refine ((loadedState x).progWord_eq_some i _).mpr ⟨hi, ?_⟩
  calc (Memory.ofWords (x.words.map (BitVec.ofNat 4))).read i
      = (x.words.map (BitVec.ofNat 4))[i]? := Memory.read_ofWords _ i
    _ = some (BitVec.ofNat 4 w) := by rw [List.getElem?_map, h, Option.map_some]

/-- Settles O33: LOAD places the words, and neither START nor any step of the run changes the program. -/
theorem fetchReturnsTheLoadedWord : Obligations.FetchReturnsTheLoadedWord := by
  intro p x s t n i w haccepted hrun hword
  obtain ⟨hok, hloaded⟩ : loadArgsOk p x = true ∧ (transact p (.load x) s).state = loadedState x :=
    load_accepted p x s haccepted
  rw [hloaded] at hrun
  obtain ⟨hprogRun, hlenRun⟩ := run_program_kept n _ t hrun
  obtain ⟨hprogStart, hlenStart⟩ := start_program_kept (loadedState x)
  refine ⟨BitVec.ofNat 4 w, ?_, ?_⟩
  · rw [State.progWord_congr (loadedState x) t i (hprogRun.trans hprogStart) (hlenRun.trans hlenStart)]
    exact loadedState_progWord x i w hword
  · have hlt : w < 16 := loadArgsOk_word_lt p x w hok (List.mem_of_getElem? hword)
    exact (BitVec.toNat_ofNat w 4).trans (Nat.mod_eq_of_lt hlt)

end Sys2Proof.Machine
end

section
/-! SUPPORT. The decoder as R56's function of the two words (spec/30_encoding.md R51 to R53, R56). -/

namespace Sys2Proof

/-- The combo check as a test on the operand word: 7 and above are `InvalidCombo` (R52, R53 (a)). -/
theorem withComboCode_eq (opd : Nibble) (mk : Nibble → Instr) :
    withComboCode opd mk = if 7 ≤ opd.toNat then .error .invalidCombo else .ok (mk opd) := by
  by_cases hbad : 7 ≤ opd.toNat
  · have hcode : ¬ opd.toNat ≤ 6 := by omega
    simp [withComboCode, comboCodeOk, hbad, hcode]
  · have hcode : opd.toNat ≤ 6 := by omega
    simp [withComboCode, comboCodeOk, hbad, hcode]

/-- The opcode words by what R47 and R51 make of the operand word: illegal, combo, or not checked. -/
theorem opcode_kinds (opw : Nibble) : 7 < opw.toNat ∨
    (opw.toNat = 0 ∨ opw.toNat = 2 ∨ opw.toNat = 5 ∨ opw.toNat = 6 ∨ opw.toNat = 7) ∨
    (opw.toNat = 1 ∨ opw.toNat = 3 ∨ opw.toNat = 4) := by omega

/-- Settles O2, by the kind of the opcode word: only a combo opcode checks its operand word. -/
theorem decoderIsThePairFunction : Obligations.DecoderIsThePairFunction := by
  intro opw opd
  rw [decode_eq]
  obtain hillegal | hcombo | hunchecked := opcode_kinds opw
  · have hno (n : Nat) (hn : n ≤ 7) : opw.toNat ≠ n := by omega
    simp [hillegal, hno]
  · rcases hcombo with hop | hop | hop | hop | hop <;> simp [hop, withComboCode_eq]
  · rcases hunchecked with hop | hop | hop <;> simp [hop]

end Sys2Proof
end

section
/-! SUPPORT. The combo operand, the one update of `pc`, and precise faults (spec/40_step_cycle.md R62, R63, R65). -/

namespace Sys2Proof.Machine

/-- Codes 0 to 3 are their own value, in any state (R63). -/
theorem combo_of_le_three (k : Nibble) (s : State) (h : k.toNat ≤ 3) :
    combo k s = some (BitVec.ofNat 64 k.toNat) := by
  obtain hk | hk | hk | hk : k.toNat = 0 ∨ k.toNat = 1 ∨ k.toNat = 2 ∨ k.toNat = 3 := by omega
  all_goals
    rw [combo, hk]
    rfl

/-- Codes 4, 5 and 6 select a register, and it is read from the state at hand (R63). -/
theorem combo_register (k : Nibble) (s : State) :
    (k.toNat = 4 → combo k s = some s.a) ∧ (k.toNat = 5 → combo k s = some s.b)
      ∧ (k.toNat = 6 → combo k s = some s.c) := by
  refine ⟨fun hk => ?_, fun hk => ?_, fun hk => ?_⟩
  all_goals
    rw [combo, hk]
    rfl

/-- Settles O5, by the rows of the combo table: a literal, a register, or no value. -/
theorem comboResolution : Obligations.ComboResolution := by
  intro k s
  obtain ⟨ha, hb, hc⟩ := combo_register k s
  refine ⟨combo_of_le_three k s, ha, hb, hc, fun hk => ?_⟩
  rcases combo_cases k s with ⟨hle, _⟩ | ⟨_, hnone⟩
  · omega
  · exact hnone

/-- An instruction raises a condition, or keeps `STATUS` and moves `pc` once: past its pair, or to the legal target of a
taken `Jnz` (R65, 43_control.md R80, R81). -/
theorem ExecEffect.raise_or_pc_cases {i : Instr} {s t : State} (h : ExecEffect s i t) :
    (∃ x, t = s.raise x)
      ∨ t.status = s.status
        ∧ ((t.pc = s.pc + 2 ∧ ∀ lit, i = .jnz lit → s.a = 0)
          ∨ ∃ lit, i = .jnz lit ∧ s.a ≠ 0 ∧ lit.toNat % 2 = 0 ∧ lit.toNat < s.len ∧ t.pc = lit.toNat) := by
  cases h with
  | comboFault | badJump => exact .inl ⟨_, rfl⟩
  | adv | bxl | bst | bxc | bdv | cdv =>
    rw [State.retire_status, State.retire_pc, State.setReg_status, State.setReg_pc]
    exact .inr ⟨rfl, .inl ⟨rfl, fun _ hi => nomatch hi⟩⟩
  | out => exact .inr ⟨rfl, .inl ⟨rfl, fun _ hi => nomatch hi⟩⟩
  | fallThrough _ ha => exact .inr ⟨rfl, .inl ⟨rfl, fun _ _ => ha⟩⟩
  | jump lit ha heven hlt => exact .inr ⟨rfl, .inr ⟨lit, rfl, ha, heven, hlt, rfl⟩⟩

/-- Settles O20: a run that goes on has raised nothing, so `pc` fell through or took a legal jump. -/
theorem programCounterUpdate : Obligations.ProgramCounterUpdate := by
  intro i s t hexec _ hgoesOn
  rcases (exec_next i s t hexec).raise_or_pc_cases with
    ⟨x, rfl⟩ | ⟨_, ⟨hpc, ha⟩ | ⟨lit, rfl, ha, heven, hlt, hpc⟩⟩
  · cases hgoesOn
  · refine ⟨fun _ => hpc, fun lit hi => ?_, fun _ _ _ => by omega⟩
    rw [hpc, if_pos (ha lit hi)]
  · refine ⟨fun hno => absurd rfl (hno lit), fun lit' hi => ?_, fun _ _ _ => by omega⟩
    obtain rfl : lit = lit' := by injection hi
    rw [hpc, if_neg ha]

/-- The only way a running step ends in FAULTED is fault entry (60_exceptions.md R96). -/
theorem StepEffect.eq_raise_of_faulted {s t : State} (h : StepEffect s t) (hrun : s.status = .running)
    (hfaulted : t.status = .faulted) : ∃ x, t = s.raise x := by
  cases h with
  | rest hrest => exact absurd hrun hrest
  | halt => cases hfaulted
  | noFuel | badPair => exact ⟨_, rfl⟩
  | exec _ _ i _ _ _ _ _ _ hexec =>
    rcases (exec_next i s t hexec).raise_or_pc_cases with hraise | ⟨hkept, _⟩
    · exact hraise
    · rw [hkept, hrun] at hfaulted
      cases hfaulted

/-- Settles O28: a faulting step is fault entry, which writes `STATUS` and `CAUSE` alone. -/
theorem faultsArePrecise : Obligations.FaultsArePrecise :=
  fun s t hrun hstep hfaulted => (step_next s t hstep).eq_raise_of_faulted hrun hfaulted

end Sys2Proof.Machine
end

section
/-! SUPPORT. The steps that do not execute, and the instructions with a combo operand, from the decoder's check to the
next state (spec/40_step_cycle.md R60, R63; 30_encoding.md R52, R53; 60_exceptions.md R92, R94). -/

namespace Sys2Proof.Machine

/-- Without fuel the pair at `pc` is not looked at (R60 point 2, R94). -/
theorem step_eq_raise_fuelExhausted (s : State) (hrun : s.status = .running) (hpc : s.pc < s.len) (hfuel : s.fuel = 0) :
    step s = .next (s.raise .fuelExhausted) := by
  simp [step, cycle, runningStep, hrun, Nat.not_le.mpr hpc, hfuel]

/-- With fuel left, a pair that does not decode raises its condition (R91, R92): the converse of `StepEffect.badPair`. -/
theorem step_eq_raise_of_decode_error (s : State) (opw opd : Nibble) (e : DecodeError) (hrun : s.status = .running)
    (hpc : s.pc < s.len) (hfuel : s.fuel ≠ 0) (hfetch : s.fetch = some (opw, opd))
    (hdecode : decode opw opd = .error e) : step s = .next (s.raise (conditionOf e)) := by
  simp [step, cycle, runningStep, runPair, hrun, Nat.not_le.mpr hpc, hfuel, hfetch, hdecode]

section comboInstruction
variable {opw : Nibble} {mk : Nibble → Instr} {effect : State → Word → State}

/-- An opcode word whose operand kind is combo decodes with every code 0 to 6. -/
theorem decode_combo_ok (hdecode : ∀ k, decode opw k = withComboCode k mk) (k : Nibble) (hk : k.toNat ≤ 6) :
    decode opw k = .ok (mk k) := by
  rw [hdecode, withComboCode_eq, if_neg (by omega)]

/-- Such an opcode word decodes with no other operand word (R52, R53 (a)). -/
theorem decode_combo_error (hdecode : ∀ k, decode opw k = withComboCode k mk) (k : Nibble) (hk : 7 ≤ k.toNat) :
    decode opw k = .error .invalidCombo := by
  rw [hdecode, withComboCode_eq, if_pos hk]

/-- A code 0 to 6 has a value, and the instruction takes its effect on that value. -/
theorem exec_combo_next (hexec : ∀ k s, exec (mk k) s = withCombo k s (effect s)) (k : Nibble) (s : State)
    (hk : k.toNat ≤ 6) : ∃ v, combo k s = some v ∧ exec (mk k) s = .next (effect s v) := by
  rcases combo_cases k s with ⟨_, v, hv⟩ | ⟨hbad, _⟩
  · exact ⟨v, hv, (hexec k s).trans (withCombo_some k s _ v hv)⟩
  · omega

/-- An instruction with a combo operand: its effect for codes 0 to 6, `InvalidCombo` for the others, and
`FuelExhausted` before either is looked at. -/
theorem comboInstruction_spec (hdecode : ∀ k, decode opw k = withComboCode k mk)
    (hexec : ∀ k s, exec (mk k) s = withCombo k s (effect s)) (k : Nibble) (s : State) :
    (k.toNat ≤ 6 → decode opw k = .ok (mk k)
        ∧ (s.fuel ≠ 0 → ∃ v, combo k s = some v ∧ exec (mk k) s = .next (effect s v)))
      ∧ (7 ≤ k.toNat → decode opw k = .error .invalidCombo
        ∧ (s.status = .running → s.pc < s.len → s.fuel ≠ 0 →
            s.progWord s.pc = some opw → s.progWord (s.pc + 1) = some k → step s = .next (s.raise .invalidCombo)))
      ∧ (s.status = .running → s.pc < s.len → s.fuel = 0 → step s = .next (s.raise .fuelExhausted)) := by
  refine ⟨fun hk => ⟨decode_combo_ok hdecode k hk, fun _ => exec_combo_next hexec k s hk⟩, fun hk => ?_,
    step_eq_raise_fuelExhausted s⟩
  have hillegal := decode_combo_error hdecode k hk
  refine ⟨hillegal, fun hrun hpc hfuel hopw hopd => ?_⟩
  have hfetch : s.fetch = some (opw, k) := (s.fetch_eq_some opw k).mpr ⟨hopw, hopd⟩
  exact step_eq_raise_of_decode_error s opw k .invalidCombo hrun hpc hfuel hfetch hillegal

end comboInstruction

end Sys2Proof.Machine
end

section
/-! SUPPORT. The shift family (spec/41_shift_divide.md R70, R72 to R74): `Adv`, `Bdv` and `Cdv` are one operation, which
divides A and differs only in the register it writes. -/

namespace Sys2Proof.Machine

/-- The shifter divides by a power of two; from 64 on the divisor exceeds every operand, so the quotient is the 0 of
decision D5. -/
theorem shr64_toNat (v amount : Word) : (shr64 v amount).toNat = v.toNat / 2 ^ amount.toNat := by
  unfold shr64
  split
  case isTrue => rw [BitVec.toNat_ushiftRight, Nat.shiftRight_eq_div_pow]
  case isFalse hlarge =>
    have hdivisor : 2 ^ 64 ≤ 2 ^ amount.toNat := Nat.pow_le_pow_right (by decide) (Nat.not_lt.mp hlarge)
    exact (Nat.div_eq_of_lt (v.isLt.trans_le hdivisor)).symm

theorem shr64_eq_ofNat (v amount : Word) : shr64 v amount = BitVec.ofNat 64 (v.toNat / 2 ^ amount.toNat) := by
  rw [← shr64_toNat, BitVec.ofNat_toNat, BitVec.setWidth_eq]

/-- The family's effect in the words of R72 to R74: A divided by two to the amount, into one register. -/
def divideInto (dst : Reg) (s : State) (amount : Word) : State :=
  (s.setReg dst (BitVec.ofNat 64 (s.a.toNat / 2 ^ amount.toNat))).retire

theorem shiftInto_eq_divideInto (dst : Reg) (k : Nibble) (s : State) :
    shiftInto dst k s = withCombo k s (divideInto dst s) := by
  simp only [shiftInto, State.reg_a, shr64_eq_ofNat]
  rfl

/-- Settles O9: `Adv` is opcode 0, and divides into A. -/
theorem advShiftsA : Obligations.AdvShiftsA :=
  comboInstruction_spec (opw := 0) (mk := .adv) (fun _ => rfl) (shiftInto_eq_divideInto .a)

/-- Settles O10: `Bdv` is opcode 6, and divides into B. -/
theorem bdvShiftsAIntoB : Obligations.BdvShiftsAIntoB :=
  comboInstruction_spec (opw := 6) (mk := .bdv) (fun _ => rfl) (shiftInto_eq_divideInto .b)

/-- Settles O11: `Cdv` is opcode 7, and divides into C. -/
theorem cdvShiftsAIntoC : Obligations.CdvShiftsAIntoC :=
  comboInstruction_spec (opw := 7) (mk := .cdv) (fun _ => rfl) (shiftInto_eq_divideInto .c)

end Sys2Proof.Machine
end

section
/-! SUPPORT. `Bxl` and `Bst` (spec/42_bitwise.md R75, R76): the literal and the low three bits, written as numbers. -/

namespace Sys2Proof.Machine

theorem literal_eq_ofNat (lit : Nibble) : literal lit = BitVec.ofNat 64 lit.toNat :=
  (BitVec.ofNat_toNat 64 lit).symm

/-- A literal has the bits of its operand word, and none above them. -/
theorem literal_getLsbD (lit : Nibble) (n : Nat) : (literal lit).getLsbD n = lit.toNat.testBit n := by
  rw [← BitVec.testBit_toNat, literal, BitVec.toNat_setWidth_of_le (by decide)]

/-- A literal of at most 7 has three bits, so an XOR with it keeps the bits from 3 up (R75). -/
theorem xor_literal_getLsbD_of_le_seven (v : Word) (lit : Nibble) (hlit : lit.toNat ≤ 7) (n : Nat) (hn : 3 ≤ n) :
    (v ^^^ literal lit).getLsbD n = v.getLsbD n := by
  have hlt : lit.toNat < 2 ^ n := calc
    lit.toNat < 2 ^ 3 := Nat.lt_succ_of_le hlit
    _ ≤ 2 ^ n := Nat.pow_le_pow_right (by decide) hn
  rw [BitVec.getLsbD_xor, literal_getLsbD, Nat.testBit_lt_two_pow hlt, Bool.xor_false]

theorem exec_bxl (lit : Nibble) (s : State) :
    exec (.bxl lit) s = .next (s.setReg .b (s.b ^^^ literal lit)).retire := rfl

/-- Settles O12: every literal decodes and executes, and only a lack of fuel stops the step. -/
theorem bxlXorsLiteral : Obligations.BxlXorsLiteral := by
  intro lit s
  rw [← literal_eq_ofNat]
  exact ⟨rfl, fun _ => exec_bxl lit s, xor_literal_getLsbD_of_le_seven s.b lit, step_eq_raise_fuelExhausted s⟩

/-- The truncation of R76 is the remainder mod 8, as a register value. -/
theorem mod8_setWidth_eq_ofNat (v : Word) : (mod8 v).setWidth 64 = BitVec.ofNat 64 (v.toNat % 8) := by
  rw [← BitVec.ofNat_toNat, mod8, BitVec.toNat_setWidth]

/-- The effect of `Bst` in the words of R76: the remainder mod 8, into B. -/
def remainderIntoB (s : State) (v : Word) : State := (s.setReg .b (BitVec.ofNat 64 (v.toNat % 8))).retire

theorem execBst_eq_remainderIntoB (k : Nibble) (s : State) : execBst k s = withCombo k s (remainderIntoB s) := by
  simp only [execBst, mod8_setWidth_eq_ofNat]
  rfl

/-- Settles O13: `Bst` is opcode 2, and takes the remainder. -/
theorem bstKeepsLowThreeBits : Obligations.BstKeepsLowThreeBits :=
  comboInstruction_spec (opw := 2) (mk := .bst) (fun _ => rfl) execBst_eq_remainderIntoB

end Sys2Proof.Machine
end

section
/-! SUPPORT. The end of a run (spec/43_control.md R82, 40_step_cycle.md R60): when a running step halts, where it leaves
`pc`, and what a run that has ended keeps. -/

namespace Sys2Proof.Machine

/-- At or above `LEN` the step halts, before fuel is looked at (R60 point 1, R82): the converse of `StepEffect.halt`. -/
theorem step_eq_halt (s : State) (hrun : s.status = .running) (hpc : s.len ≤ s.pc) : step s = .next s.halt := by
  simp [step, cycle, runningStep, hrun, hpc]

/-- In any other status the sequencer does nothing (R60): the converse of `StepEffect.rest`. -/
theorem step_eq_self_of_not_running (s : State) (hrest : s.status ≠ .running) : step s = .next s := by
  unfold step cycle
  split
  · exact absurd ‹_› hrest
  all_goals rfl

/-- A running step halts at or above `LEN`. Below it, the step raises a condition, or goes on with `pc` past its pair or
back inside the program, since a taken `Jnz` has a target below `LEN` (R81). -/
theorem StepEffect.running_cases {s t : State} (h : StepEffect s t) (hrun : s.status = .running) :
    (s.len ≤ s.pc ∧ t = s.halt)
      ∨ s.pc < s.len
        ∧ ((∃ x, t = s.raise x) ∨ t.status = .running ∧ (t.pc = s.pc + 2 ∨ t.pc < s.len)) := by
  cases h with
  | rest hrest => exact absurd hrun hrest
  | halt _ hpc => exact .inl ⟨hpc, rfl⟩
  | noFuel _ hpc | badPair _ _ _ _ hpc => exact .inr ⟨hpc, .inl ⟨_, rfl⟩⟩
  | exec _ _ i _ _ hpc _ _ _ hexec =>
    refine .inr ⟨hpc, ?_⟩
    rcases (exec_next i s t hexec).raise_or_pc_cases with
      hraise | ⟨hkept, ⟨hfell, _⟩ | ⟨lit, _, _, _, hlt, hjumped⟩⟩
    · exact .inl hraise
    · exact .inr ⟨hkept.trans hrun, .inl hfell⟩
    · exact .inr ⟨hkept.trans hrun, .inr (hjumped ▸ hlt)⟩

/-- A step halts only at or above `LEN` (R82). -/
theorem StepEffect.len_le_pc_of_halted {s t : State} (h : StepEffect s t) (hrun : s.status = .running)
    (hhalted : t.status = .halted) : s.len ≤ s.pc := by
  rcases h.running_cases hrun with ⟨hpc, _⟩ | ⟨_, ⟨x, rfl⟩ | ⟨hgoesOn, _⟩⟩
  · exact hpc
  · cases hhalted
  · rw [hgoesOn] at hhalted
    cases hhalted

/-- `pc` leaves the program only by falling through (R82): fault entry keeps it, and no jump reaches `LEN`. -/
theorem StepEffect.pc_of_len_le {s t : State} (h : StepEffect s t) (hrun : s.status = .running)
    (hpc : s.pc < s.len) (hleft : s.len ≤ t.pc) : t.pc = s.pc + 2 := by
  rcases h.running_cases hrun with ⟨hend, _⟩ | ⟨_, ⟨x, rfl⟩ | ⟨_, hfell | hinside⟩⟩
  · exact absurd hend (Nat.not_le.mpr hpc)
  · rw [State.raise_pc] at hleft
    exact absurd hleft (Nat.not_le.mpr hpc)
  · exact hfell
  · exact absurd hleft (Nat.not_le.mpr hinside)

/-- START is refused in every status but IDLE (10_state.md R25). -/
theorem start_state_of_not_idle (s : State) (h : s.status ≠ .idle) : (start s).state = s := by
  rcases start_cases s with ⟨hidle, _, _⟩ | hrefused
  · exact absurd hidle h
  · rw [hrefused]
    rfl

/-- Outside IDLE only LOAD and RESET change the state (10_state.md R24 to R28). -/
theorem load_or_reset_of_transact_ne (p : Params) (x : Transaction) (s : State) (hidle : s.status ≠ .idle)
    (hchanged : (transact p x s).state ≠ s) : x = .reset ∨ ∃ args, x = .load args := by
  cases x with
  | load args => exact .inr ⟨args, rfl⟩
  | start => exact absurd (start_state_of_not_idle s hidle) hchanged
  | readback => exact absurd rfl hchanged
  | reset => exact .inl rfl

/-- Settles O23: the cases of a running step give when it halts and how `pc` comes to `LEN`; a halted state is neither
RUNNING nor IDLE, so it rests and refuses START. -/
theorem haltRule : Obligations.HaltRule := by
  refine ⟨step_eq_halt, fun s t hrun hstep hhalted => ?_, fun s t hrun hpc hstep => ?_, fun s hhalted => ?_,
    fun p x s hhalted => ?_⟩
  · have hend : s.len ≤ s.pc := (step_next s t hstep).len_le_pc_of_halted hrun hhalted
    exact ⟨hend, fun hinv => Nat.le_antisymm hinv.pcBound hend⟩
  · exact (step_next s t hstep).pc_of_len_le hrun hpc
  · exact step_eq_self_of_not_running s (by simp [hhalted])
  · exact load_or_reset_of_transact_ne p x s (by simp [hhalted])

end Sys2Proof.Machine
end

section
/-! SUPPORT. `Out` (spec/44_output.md R86): the digit written as a number, and who may write the stream. -/

namespace Sys2Proof.Machine

/-- The effect of `Out` in the words of R86: the remainder mod 8, at the end of the stream. -/
def appendRemainder (s : State) (v : Word) : State := (s.outAppend (BitVec.ofNat 3 (v.toNat % 8))).retire

theorem execOut_eq_appendRemainder (k : Nibble) (s : State) : execOut k s = withCombo k s (appendRemainder s) := by
  simp only [execOut, mod8_eq_ofNat]
  rfl

/-- No instruction but `Out` writes the stream. -/
theorem ExecEffect.out_of_not_out {i : Instr} {s t : State} (h : ExecEffect s i t) (hi : ∀ k, i ≠ .out k) :
    t.out = s.out := by
  rcases h.out_cases with hsame | ⟨k, _, hout, _⟩
  · exact hsame
  · exact absurd hout (hi k)

/-- Settles O15: `Out` is opcode 5, and appends the remainder; the effects of the other instructions keep the stream. -/
theorem outAppendsDigit : Obligations.OutAppendsDigit := by
  intro k s
  obtain ⟨hlegal, hillegal, hdry⟩ :=
    comboInstruction_spec (opw := 5) (mk := .out) (fun _ => rfl) execOut_eq_appendRemainder k s
  exact ⟨hlegal, hillegal, hdry, fun i t hexec => (exec_next i s t hexec).out_of_not_out⟩

end Sys2Proof.Machine
end

section
/-! SUPPORT. Which running steps raise which condition (spec/60_exceptions.md R91 to R96), said once as an equivalence. -/

namespace Sys2Proof

/-- The opcode word alone decides `InvalidOpcode` (30_encoding.md R51). -/
theorem decode_eq_invalidOpcode_iff (opw opd : Nibble) :
    decode opw opd = .error .invalidOpcode ↔ 7 < opw.toNat := by
  rw [decoderIsThePairFunction opw opd]
  constructor
  · intro h
    split at h
    case isTrue hopw => exact hopw
    case isFalse =>
      split at h
      case isTrue => cases h
      case isFalse => split at h <;> cases h
  · intro hopw
    rw [if_pos hopw]

end Sys2Proof

namespace Sys2Proof.Machine

/-- Why the step of a running state raises a condition, one reason for each: no fuel is left (R94), the pair due does not
decode (R91, R92), or it is a `Jnz` taken to a bad target (R93). `step_eq_raise_iff` ties it to the step. -/
inductive RaisedBy (s : State) : Condition → Prop where
  | noFuel : s.pc < s.len → s.fuel = 0 → RaisedBy s .fuelExhausted
  | badOpcode (opw opd : Nibble) : s.pc < s.len → s.fuel ≠ 0 → s.fetch = some (opw, opd) →
      decode opw opd = .error .invalidOpcode → RaisedBy s .invalidOpcode
  | badCombo (opw opd : Nibble) : s.pc < s.len → s.fuel ≠ 0 → s.fetch = some (opw, opd) →
      decode opw opd = .error .invalidCombo → RaisedBy s .invalidCombo
  | badJump (lit : Nibble) : s.fuel ≠ 0 → s.fetch = some (3, lit) → s.a ≠ 0 →
      (lit.toNat % 2 = 1 ∨ s.len ≤ lit.toNat) → RaisedBy s .jumpOutOfRange

/-- A decoded instruction has a checked combo code, so only a `Jnz` taken to a bad target raises a condition. -/
theorem ExecEffect.badJump_of_faulted {i : Instr} {s t : State} (h : ExecEffect s i t) (hi : i.wellFormed = true)
    (hrun : s.status = .running) (hfaulted : t.status = .faulted) :
    ∃ lit, i = .jnz lit ∧ s.a ≠ 0 ∧ (lit.toNat % 2 = 1 ∨ s.len ≤ lit.toNat) ∧ t = s.raise .jumpOutOfRange := by
  cases h with
  | comboFault _ hbad => simp [hbad] at hi
  | badJump lit ha hbad => exact ⟨lit, rfl, ha, hbad, rfl⟩
  | adv | bxl | bst | fallThrough | jump | bxc | out | bdv | cdv => simp [hrun] at hfaulted

/-- A running step that ends in FAULTED with a cause had that cause's reason. -/
theorem StepEffect.raisedBy {s t : State} {x : Condition} (h : StepEffect s t) (hrun : s.status = .running)
    (hfaulted : t.status = .faulted) (hcause : t.cause = some x) : RaisedBy s x := by
  cases h with
  | rest hrest => exact absurd hrun hrest
  | halt => cases hfaulted
  | noFuel _ hpc hfuel =>
    cases hcause
    exact .noFuel hpc hfuel
  | badPair opw opd e _ hpc hfuel hfetch hdecode =>
    cases hcause
    cases e with
    | invalidOpcode => exact .badOpcode opw opd hpc hfuel hfetch hdecode
    | invalidCombo => exact .badCombo opw opd hpc hfuel hfetch hdecode
  | exec opw opd i _ _ _ hfuel hfetch hdecode hexec =>
    obtain ⟨rfl, hi⟩ := decode_ok opw opd i hdecode
    obtain ⟨lit, rfl, ha, hbad, rfl⟩ := (exec_next i s t hexec).badJump_of_faulted hi hrun hfaulted
    obtain rfl : lit = opd := by injection hdecode with h; injection h with h; exact h.symm
    cases hcause
    exact .badJump lit hfuel hfetch ha hbad

/-- With fuel left, a `Jnz` pair at `pc` is executed, whatever its operand word (43_control.md R80). -/
theorem step_eq_exec_jnz (s : State) (lit : Nibble) (hrun : s.status = .running) (hfuel : s.fuel ≠ 0)
    (hfetch : s.fetch = some (3, lit)) : step s = exec (.jnz lit) s :=
  step_eq_exec s 3 lit (.jnz lit) hrun hfuel hfetch rfl

/-- A reason to raise a condition makes the step raise it, and change nothing else (R96). -/
theorem RaisedBy.step_eq {s : State} {x : Condition} (h : RaisedBy s x) (hrun : s.status = .running) :
    step s = .next (s.raise x) := by
  cases h with
  | noFuel hpc hfuel => exact step_eq_raise_fuelExhausted s hrun hpc hfuel
  | badOpcode opw opd hpc hfuel hfetch hdecode | badCombo opw opd hpc hfuel hfetch hdecode =>
    exact step_eq_raise_of_decode_error s opw opd _ hrun hpc hfuel hfetch hdecode
  | badJump lit hfuel hfetch ha hbad =>
    rw [step_eq_exec_jnz s lit hrun hfuel hfetch]
    exact (ExecEffect.badJump lit ha hbad).exec_eq

theorem step_eq_raise_iff (s : State) (x : Condition) (hrun : s.status = .running) :
    step s = .next (s.raise x) ↔ RaisedBy s x :=
  ⟨fun hstep => (step_next s _ hstep).raisedBy hrun rfl rfl, fun h => h.step_eq hrun⟩

/-- Settles O24: the check comes before the fetch, and lack of fuel is the only reason for `FuelExhausted`. -/
theorem fuelExhaustedRule : Obligations.FuelExhaustedRule := by
  refine ⟨step_eq_raise_fuelExhausted, fun s t hrun hstep hfaulted hcause => ?_⟩
  cases (step_next s t hstep).raisedBy hrun hfaulted hcause with
  | noFuel hpc hfuel => exact ⟨hpc, hfuel⟩

/-- Settles O25: the only reason for `InvalidOpcode` is the decoder's, which looks at the opcode word alone. -/
theorem invalidOpcodeRule : Obligations.InvalidOpcodeRule := by
  intro s opw opd hrun hpc hfuel hopw hopd
  have hfetch : s.fetch = some (opw, opd) := (s.fetch_eq_some opw opd).mpr ⟨hopw, hopd⟩
  calc 7 < opw.toNat
    _ ↔ decode opw opd = .error .invalidOpcode := (decode_eq_invalidOpcode_iff opw opd).symm
    _ ↔ RaisedBy s .invalidOpcode := by
      refine ⟨.badOpcode opw opd hpc hfuel hfetch, fun h => ?_⟩
      cases h with
      | badOpcode opw' opd' _ _ hfetch' hdecode =>
        obtain ⟨rfl, rfl⟩ : opw' = opw ∧ opd' = opd := by simpa [hfetch', Prod.ext_iff] using hfetch
        exact hdecode
    _ ↔ step s = .next (s.raise .invalidOpcode) := (step_eq_raise_iff s .invalidOpcode hrun).symm

/-- Settles O27: a bad target of a taken `Jnz` is the only reason for `JumpOutOfRange`; with A = 0 the target is not
examined. -/
theorem jumpOutOfRangeRule : Obligations.JumpOutOfRangeRule := by
  refine ⟨fun s opd hrun _ hfuel hopw hopd => ?_, fun s t hrun hstep hfaulted hcause => ?_⟩
  · have hfetch : s.fetch = some (3, opd) := (s.fetch_eq_some 3 opd).mpr ⟨hopw, hopd⟩
    refine ⟨Iff.trans ⟨fun ⟨ha, hbad⟩ => .badJump opd hfuel hfetch ha hbad, fun h => ?_⟩
      (step_eq_raise_iff s .jumpOutOfRange hrun).symm, fun ha => ?_⟩
    · cases h with
      | badJump lit _ hfetch' ha hbad =>
        obtain rfl : lit = opd := by simpa [hfetch'] using hfetch
        exact ⟨ha, hbad⟩
    · rw [step_eq_exec_jnz s opd hrun hfuel hfetch]
      exact (ExecEffect.fallThrough opd ha).exec_eq
  · cases (step_next s t hstep).raisedBy hrun hfaulted hcause with
    | badJump lit _ hfetch => exact ((s.fetch_eq_some 3 lit).mp hfetch).1

end Sys2Proof.Machine
end

section
/-! SUPPORT. LOAD then START (spec/10_state.md R24, R25): the run begins in a state that the LOAD's arguments alone decide,
which is why nothing of an earlier run survives (70_reset_and_hazards.md R113). -/

namespace Sys2Proof.Machine

/-- START accepts every loaded state: LOAD leaves IDLE and marks the program as loaded. -/
theorem start_loadedState (x : LoadArgs) :
    start (loadedState x) = { accepted := true, state := startedState (loadedState x) } :=
  if_pos ⟨rfl, rfl⟩

/-- The earlier state `s` does not occur in what START answers after an accepted LOAD. -/
theorem start_after_load (p : Params) (x : LoadArgs) (s : State) (h : (transact p (.load x) s).accepted = true) :
    transact p .start (transact p (.load x) s).state
      = { accepted := true, state := startedState (loadedState x) } := by
  obtain ⟨_, hloaded⟩ : loadArgsOk p x = true ∧ (transact p (.load x) s).state = loadedState x :=
    load_accepted p x s h
  rw [hloaded]
  exact start_loadedState x

/-- The loader admits only register values of 64 bits. -/
theorem loadArgsOk_registers_lt (p : Params) (x : LoadArgs) (h : loadArgsOk p x = true) :
    x.a < 2 ^ 64 ∧ x.b < 2 ^ 64 ∧ x.c < 2 ^ 64 := by
  simp only [loadArgsOk, Bool.and_eq_true, decide_eq_true_eq] at h
  obtain ⟨⟨⟨⟨⟨⟨⟨ha, hb⟩, hc⟩, _⟩, _⟩, _⟩, _⟩, _⟩ := h
  exact ⟨ha, hb, hc⟩

/-- So the registers hold the loaded values themselves, and not their remainders mod 2^64. -/
theorem loadedState_registers (p : Params) (x : LoadArgs) (h : loadArgsOk p x = true) :
    (loadedState x).a.toNat = x.a ∧ (loadedState x).b.toNat = x.b ∧ (loadedState x).c.toNat = x.c := by
  obtain ⟨ha, hb, hc⟩ := loadArgsOk_registers_lt p x h
  exact ⟨Nat.mod_eq_of_lt ha, Nat.mod_eq_of_lt hb, Nat.mod_eq_of_lt hc⟩

/-- START is accepted only in IDLE. -/
theorem idle_of_start_accepted (s : State) (h : (start s).accepted = true) : s.status = .idle := by
  rcases start_cases s with ⟨hidle, _, _⟩ | hrefused
  · exact hidle
  · rw [hrefused] at h
    cases h

/-- Settles O48: both runs begin in the started state of the LOAD's arguments, and an ended run is not IDLE. -/
theorem everyRunStartsClean : Obligations.EveryRunStartsClean := by
  intro p x s s'
  refine ⟨fun hs hs' => ?_, fun hended => ?_⟩
  · obtain ⟨hok, _⟩ : loadArgsOk p x = true ∧ (load p x s).state = loadedState x := load_accepted p x s hs
    exact ⟨startedState (loadedState x), start_after_load p x s hs, start_after_load p x s' hs', rfl, rfl, rfl, rfl, rfl,
      loadedState_registers p x hok⟩
  · refine Bool.eq_false_iff.mpr fun haccepted => ?_
    have hidle : s.status = .idle := idle_of_start_accepted s haccepted
    simp [hidle] at hended

end Sys2Proof.Machine
end

section
/-! SUPPORT. The encoder and the decoder are inverse to each other, but for the operand word that `Bxc` ignores
(spec/30_encoding.md R47, R56). -/

namespace Sys2Proof

/-- A code that passes the check is kept: the converse of `withComboCode_ok`. -/
theorem withComboCode_of_ok (opd : Nibble) (mk : Nibble → Instr) (h : comboCodeOk opd = true) :
    withComboCode opd mk = .ok (mk opd) := if_pos h

/-- Settles O1: the opcode words are distinct, and a well-formed term's combo code passes the decoder's check. -/
theorem decodeEncodeRoundTrip : Obligations.DecodeEncodeRoundTrip := by
  intro i hi
  cases i with
  | adv k | bst k | out k | bdv k | cdv k => exact withComboCode_of_ok k _ hi
  | bxl | jnz | bxc => rfl

/-- A decoded instruction holds its operand word, unless it is `Bxc` (R56). -/
theorem decode_ok_operand (opw opd : Nibble) (i : Instr) (h : decode opw opd = .ok i) (hi : i ≠ .bxc) :
    (encode i).2 = opd := by
  unfold decode at h
  split at h
  case h_1 | h_3 | h_6 | h_7 | h_8 =>
    obtain ⟨_, rfl⟩ := withComboCode_ok _ _ _ h
    rfl
  case h_2 | h_4 =>
    injection h with h
    subst h
    rfl
  case h_5 =>
    injection h with h
    exact absurd h.symm hi
  case h_9 => cases h

/-- Settles O3: both words of the encoding, and the check the decoder made. -/
theorem decodedPairEncodesBack : Obligations.DecodedPairEncodesBack := by
  intro opw opd i h
  obtain ⟨hopw, hwf⟩ := decode_ok opw opd i h
  exact ⟨hwf, hopw.symm, decode_ok_operand opw opd i h⟩

/-- Settles O4: ten words of the table, decoded. -/
theorem specPairsDecode : Obligations.SpecPairsDecode := by
  unfold Obligations.SpecPairsDecode
  decide

end Sys2Proof
end

section
/-! SUPPORT. The shifter (spec/41_shift_divide.md R70, R71): the hardware's reading of the amount, and its laws, which
are laws of division by `shr64_toNat`. -/

namespace Sys2Proof.Machine

/-- Settles O6. -/
theorem shiftIsFloorDivision : Obligations.ShiftIsFloorDivision := shr64_toNat

/-- The high 58 bits of an amount tell whether it is below 64. -/
theorem extractLsb'_high_eq_zero_iff (amount : Word) : amount.extractLsb' 6 58 = 0 ↔ amount.toNat < 64 := by
  have hquotient : (amount.extractLsb' 6 58).toNat = amount.toNat / 64 := by
    rw [BitVec.extractLsb'_toNat, Nat.shiftRight_eq_div_pow]
    omega
  rw [← BitVec.toNat_inj, hquotient]
  exact Nat.div_eq_zero_iff_lt (by decide)

/-- The low 6 bits of an amount below 64 are the amount. -/
theorem extractLsb'_low_toNat (amount : Word) (h : amount.toNat < 64) :
    (amount.extractLsb' 0 6).toNat = amount.toNat := by
  rw [BitVec.extractLsb'_toNat, Nat.shiftRight_zero]
  exact Nat.mod_eq_of_lt h

/-- Settles O7: bits 63..6 decide between the two branches of `shr64`, and bits 5..0 are then the whole amount. -/
theorem hardwareShifterAgrees : Obligations.HardwareShifterAgrees := by
  intro v s
  by_cases hsmall : s.toNat < 64
  · rw [if_pos ((extractLsb'_high_eq_zero_iff s).mpr hsmall), extractLsb'_low_toNat s hsmall, shr64, if_pos hsmall]
  · rw [if_neg (mt (extractLsb'_high_eq_zero_iff s).mp hsmall), shr64, if_neg hsmall]

/-- The quotient is 0 exactly below the divisor. -/
theorem shr64_eq_zero_iff (v amount : Word) : shr64 v amount = 0 ↔ v.toNat < 2 ^ amount.toNat := by
  rw [← BitVec.toNat_inj, shr64_toNat]
  exact Nat.div_eq_zero_iff_lt (Nat.two_pow_pos _)

/-- Settles O8: each law of R71 is a law of `/` on the natural numbers. -/
theorem shifterLaws : Obligations.ShifterLaws := by
  intro v s t
  refine ⟨?_, ?_, (shr64_eq_zero_iff 0 s).mpr (Nat.two_pow_pos _), shr64_eq_zero_iff v s, ?_⟩
  · rw [shr64_toNat]
    exact Nat.div_le_self _ _
  · exact BitVec.eq_of_toNat_eq ((shr64_toNat v 0).trans (Nat.div_one _))
  · rw [shr64_toNat, shr64_toNat, Nat.div_div_eq_div_mul, Nat.pow_add]

end Sys2Proof.Machine
end

section
/-! SUPPORT. What is common to the instructions that do not raise a condition (spec/40_step_cycle.md R60 point 6,
R66), and what a step of a running state makes of it. -/

namespace Sys2Proof.Machine

/-- The commit every executed instruction has, whatever it computes: one unit of fuel, at most one output element, and
the sequencer's other registers kept. `ExecEffect.raise_or_committed` ties it to `exec`. -/
structure Committed (s t : State) : Prop where
  status : t.status = s.status
  cause : t.cause = s.cause
  fuel : t.fuel = s.fuel - 1
  outLength : t.out.length ≤ s.out.length + 1
  fuelBudget : t.fuelBudget = s.fuelBudget
  loaded : t.loaded = s.loaded

theorem ExecEffect.raise_or_committed {i : Instr} {s t : State} (h : ExecEffect s i t) :
    (∃ x, t = s.raise x) ∨ Committed s t := by
  cases h with
  | comboFault | badJump => exact .inl ⟨_, rfl⟩
  | adv | bxl | bst | bxc | bdv | cdv | out | fallThrough | jump => exact .inr (by constructor <;> simp)

/-- Settles O14: `Bxc` has no operand to check. -/
theorem bxcXorsC : Obligations.BxcXorsC := fun _ _ => ⟨rfl, fun _ => rfl⟩

/-- Settles O16: the three effects of `Jnz`, each executed. -/
theorem jnzJumpsOrFallsThrough : Obligations.JnzJumpsOrFallsThrough := fun lit _ =>
  ⟨rfl, fun _ ha => (ExecEffect.fallThrough lit ha).exec_eq,
    fun _ ha heven hlt => (ExecEffect.jump lit ha heven hlt).exec_eq,
    fun ha hbad => (ExecEffect.badJump lit ha hbad).exec_eq⟩

/-- Settles O17. -/
theorem illFormedTermRaisesInvalidCombo : Obligations.IllFormedTermRaisesInvalidCombo := exec_of_illFormed

/-- `FUEL` and the load flag are the host's: no instruction writes them. -/
theorem ExecEffect.budget_kept {i : Instr} {s t : State} (h : ExecEffect s i t) :
    t.fuelBudget = s.fuelBudget ∧ t.loaded = s.loaded := by
  rcases h.raise_or_committed with ⟨x, rfl⟩ | hcommit
  · exact ⟨State.raise_fuelBudget s x, State.raise_loaded s x⟩
  · exact ⟨hcommit.fuelBudget, hcommit.loaded⟩

/-- Settles O18: the frame's clauses, each read off the instruction's effect. -/
theorem instructionFrame : Obligations.InstructionFrame := by
  intro i s t hexec
  have heffect := exec_next i s t hexec
  obtain ⟨hprog, hlen⟩ := heffect.program_kept
  obtain ⟨hbudget, hloaded⟩ := heffect.budget_kept
  refine ⟨heffect.reg_of_not_writes, fun n => State.progWord_congr s t n hprog hlen, hprog, hlen, hbudget, hloaded,
    heffect.out_of_not_out, ?_⟩
  rcases heffect.raise_or_committed with hraise | hcommit
  · exact .inr hraise
  · exact .inl ⟨hcommit.status, hcommit.cause⟩

/-- A running step halts at or above `LEN`, raises a condition, or commits an instruction and leaves `pc` past its
pair or at the even index of a legal jump, below `LEN` (R65, 43_control.md R81). -/
theorem StepEffect.halt_or_raise_or_committed {s t : State} (h : StepEffect s t) (hrun : s.status = .running) :
    (s.len ≤ s.pc ∧ t = s.halt) ∨ (∃ x, t = s.raise x)
      ∨ s.pc < s.len ∧ s.fuel ≠ 0 ∧ Committed s t ∧ (t.pc = s.pc + 2 ∨ t.pc % 2 = 0 ∧ t.pc < s.len) := by
  cases h with
  | rest hrest => exact absurd hrun hrest
  | halt _ hpc => exact .inl ⟨hpc, rfl⟩
  | noFuel | badPair => exact .inr (.inl ⟨_, rfl⟩)
  | exec _ _ i _ _ hpc hfuel _ _ hexec =>
    have heffect := exec_next i s t hexec
    rcases heffect.raise_or_committed with hraise | hcommit
    · exact .inr (.inl hraise)
    · rcases heffect.raise_or_pc_cases with hraise | ⟨_, ⟨hfell, _⟩ | ⟨lit, _, _, heven, hlt, hjumped⟩⟩
      · exact .inr (.inl hraise)
      · exact .inr (.inr ⟨hpc, hfuel, hcommit, .inl hfell⟩)
      · exact .inr (.inr ⟨hpc, hfuel, hcommit, .inr (hjumped ▸ ⟨heven, hlt⟩)⟩)

/-- Settles O30: only a commit keeps the run going, and only a commit takes fuel. -/
theorem fuelCharge : Obligations.FuelCharge := by
  intro s t hrun hstep
  rcases (step_next s t hstep).halt_or_raise_or_committed hrun with ⟨_, rfl⟩ | ⟨x, rfl⟩ | ⟨_, hfuel, hcommit, _⟩
  · exact ⟨(nomatch ·), fun _ => State.halt_fuel s⟩
  · exact ⟨(nomatch ·), fun _ => State.raise_fuel s x⟩
  · refine ⟨fun _ => ?_, fun hended => absurd (hcommit.status.trans hrun) hended⟩
    have hcharged := hcommit.fuel
    omega

end Sys2Proof.Machine
end

section
/-! SUPPORT. The pair that a step fetches decides which instruction it runs (spec/40_step_cycle.md R60; 60_exceptions.md
R92). -/

namespace Sys2Proof

/-- R56's answer is `InvalidCombo` exactly for a combo opcode with an operand word of 7 or above (30_encoding.md R52,
R53). -/
theorem decode_eq_invalidCombo_iff (opw opd : Nibble) :
    decode opw opd = .error .invalidCombo ↔ opw.toNat ∈ [0, 2, 5, 6, 7] ∧ 7 ≤ opd.toNat := by
  rw [decoderIsThePairFunction opw opd]
  constructor
  · intro h
    split at h
    case isTrue => cases h
    case isFalse =>
      split at h
      case isTrue hbad => exact hbad
      case isFalse => split at h <;> cases h
  · intro hbad
    have hlegal : ¬ 7 < opw.toNat := by
      have hop := hbad.1
      simp only [List.mem_cons, List.not_mem_nil, or_false] at hop
      omega
    rw [if_neg hlegal, if_pos hbad]

/-- What the table's word decodes to is what its pair decodes to (R46). -/
theorem decodeTableWord_eq_some (nbits w : Nat) (i : Instr) (h : decodeTableWord nbits w = some i) :
    decode (pairOfTableWord nbits w).1 (pairOfTableWord nbits w).2 = .ok i := by
  unfold decodeTableWord at h
  split at h
  case h_1 hdecode =>
    obtain rfl := Option.some.inj h
    exact hdecode
  case h_2 => cases h

end Sys2Proof

namespace Sys2Proof.Machine

/-- Settles O21: `step_eq_exec`, with the fetch as two words. -/
theorem stepRunsDecodedInstruction : Obligations.StepRunsDecodedInstruction :=
  fun s opw opd i hrun _ hfuel hopw hopd =>
    step_eq_exec s opw opd i hrun hfuel ((s.fetch_eq_some opw opd).mpr ⟨hopw, hopd⟩)

/-- A pair that is placed is fetched: the second write is not at the first one's index. -/
theorem State.fetch_withPair (s : State) (opw opd : Nibble) : (s.withPair opw opd).fetch = some (opw, opd) := by
  have hne : s.pc ≠ s.pc + 1 := by omega
  refine (State.fetch_eq_some _ opw opd).mpr ⟨(State.progWord_eq_some _ _ opw).mpr ⟨?_, ?_⟩,
    (State.progWord_eq_some _ _ opd).mpr ⟨?_, ?_⟩⟩
  · simp
  · simp [Memory.read_write_other _ _ _ opd hne, Memory.read_write_same]
  · simp
  · simp [Memory.read_write_same]

/-- Settles O22: the placed state runs, has fuel, and fetches the word's pair. -/
theorem placedWordIsRun : Obligations.PlacedWordIsRun := by
  intro s w i hdecode
  have hfuel : (s.withFetchWord 8 w).fuel ≠ 0 := by simp [State.withFetchWord]
  exact step_eq_exec _ _ _ i (State.withPair_status s _ _) hfuel (State.fetch_withPair s _ _)
    (decodeTableWord_eq_some 8 w i hdecode)

/-- Settles O26: the only reason for `InvalidCombo` is the decoder's. -/
theorem invalidComboRule : Obligations.InvalidComboRule := by
  intro s opw opd hrun hpc hfuel hopw hopd
  have hfetch : s.fetch = some (opw, opd) := (s.fetch_eq_some opw opd).mpr ⟨hopw, hopd⟩
  calc opw.toNat ∈ [0, 2, 5, 6, 7] ∧ 7 ≤ opd.toNat
    _ ↔ decode opw opd = .error .invalidCombo := (decode_eq_invalidCombo_iff opw opd).symm
    _ ↔ RaisedBy s .invalidCombo := by
      refine ⟨.badCombo opw opd hpc hfuel hfetch, fun h => ?_⟩
      cases h with
      | badCombo opw' opd' _ _ hfetch' hdecode =>
        obtain ⟨rfl, rfl⟩ : opw' = opw ∧ opd' = opd := by simpa [hfetch', Prod.ext_iff] using hfetch
        exact hdecode
    _ ↔ step s = .next (s.raise .invalidCombo) := (step_eq_raise_iff s .invalidCombo hrun).symm

end Sys2Proof.Machine
end

section
/-! SUPPORT. What a step cannot see (spec/20_memory.md R30, 40_step_cycle.md R61, R67): the output stream, the amount
of fuel as long as there is some, and the program away from the pair that is due. One lemma says so for all three. -/

namespace Sys2Proof.Machine

/-- The same state with another output stream, another amount of fuel and another program memory. -/
def State.withUnseen (s : State) (o : List OutWord) (f : Nat) (m : Memory) : State :=
  { s with out := o, fuel := f, prog := m }

@[simp] theorem State.withUnseen_pc (s : State) (o : List OutWord) (f : Nat) (m : Memory) :
    (s.withUnseen o f m).pc = s.pc := rfl
@[simp] theorem State.withUnseen_len (s : State) (o : List OutWord) (f : Nat) (m : Memory) :
    (s.withUnseen o f m).len = s.len := rfl
@[simp] theorem State.withUnseen_prog (s : State) (o : List OutWord) (f : Nat) (m : Memory) :
    (s.withUnseen o f m).prog = m := rfl

/-- An instruction takes one unit of fuel and appends the elements of `d`, whatever is there. -/
structure CommitsUnseen (i : Instr) (s t : State) (d : List OutWord) : Prop where
  out : t.out = s.out ++ d
  fuel : t.fuel = s.fuel - 1
  effect : ∀ o f m, ExecEffect (s.withUnseen o f m) i (t.withUnseen (o ++ d) (f - 1) m)

/-- The case of an instruction that appends nothing. -/
theorem CommitsUnseen.silent {i : Instr} {s t : State} (hout : t.out = s.out) (hfuel : t.fuel = s.fuel - 1)
    (heffect : ∀ o f m, ExecEffect (s.withUnseen o f m) i (t.withUnseen o (f - 1) m)) : CommitsUnseen i s t [] where
  out := hout.trans (List.append_nil _).symm
  fuel := hfuel
  effect o f m := (List.append_nil o).symm ▸ heffect o f m

/-- An instruction raises the same condition, or makes the same commit, whatever is there. -/
theorem ExecEffect.unseen {i : Instr} {s t : State} (h : ExecEffect s i t) :
    (∃ x, t = s.raise x ∧ ∀ o f m, ExecEffect (s.withUnseen o f m) i ((s.withUnseen o f m).raise x))
      ∨ ∃ d, CommitsUnseen i s t d := by
  cases h with
  | comboFault i hi => exact .inl ⟨_, rfl, fun _ _ _ => .comboFault i hi⟩
  | badJump lit ha hbad => exact .inl ⟨_, rfl, fun _ _ _ => .badJump lit ha hbad⟩
  | out k v hv => exact .inr ⟨[mod8 v], rfl, rfl, fun _ _ _ => .out k v hv⟩
  | adv k v hv => exact .inr ⟨[], .silent rfl rfl fun _ _ _ => .adv k v hv⟩
  | bxl lit => exact .inr ⟨[], .silent rfl rfl fun _ _ _ => .bxl lit⟩
  | bst k v hv => exact .inr ⟨[], .silent rfl rfl fun _ _ _ => .bst k v hv⟩
  | fallThrough lit ha => exact .inr ⟨[], .silent rfl rfl fun _ _ _ => .fallThrough lit ha⟩
  | jump lit ha heven hlt => exact .inr ⟨[], .silent rfl rfl fun _ _ _ => .jump lit ha heven hlt⟩
  | bxc => exact .inr ⟨[], .silent rfl rfl fun _ _ _ => .bxc⟩
  | bdv k v hv => exact .inr ⟨[], .silent rfl rfl fun _ _ _ => .bdv k v hv⟩
  | cdv k v hv => exact .inr ⟨[], .silent rfl rfl fun _ _ _ => .cdv k v hv⟩

/-- A fuel `f` and a program memory `m` that a step of `s` cannot tell from the state's own: the same pair at `pc`,
and, when an instruction is due, fuel in both or in neither (R60 points 2 and 3, R61). -/
structure SameDue (s : State) (f : Nat) (m : Memory) : Prop where
  fuel : s.status = .running → s.pc < s.len → (f = 0 ↔ s.fuel = 0)
  opw : m.read s.pc = s.prog.read s.pc
  opd : m.read (s.pc + 1) = s.prog.read (s.pc + 1)

/-- The fetch looks at the words at `pc` and `pc + 1` alone (20_memory.md R33). -/
theorem SameDue.fetch_eq {s : State} {f : Nat} {m : Memory} (h : SameDue s f m) (o : List OutWord) :
    (s.withUnseen o f m).fetch = s.fetch := by
  simp only [State.fetch, State.progWord, State.withUnseen_pc, State.withUnseen_len, State.withUnseen_prog, h.opw,
    h.opd]

theorem SameDue.fuel_ne_zero {s : State} {f : Nat} {m : Memory} (h : SameDue s f m) (hrun : s.status = .running)
    (hpc : s.pc < s.len) (hfuel : s.fuel ≠ 0) : f ≠ 0 := mt (h.fuel hrun hpc).mp hfuel

/-- A step appends the elements of `d` and takes `c` units of fuel, whatever is there that it cannot see. -/
structure StepUnseen (s t : State) (d : List OutWord) (c : Nat) : Prop where
  out : t.out = s.out ++ d
  fuel : s.fuel = t.fuel + c
  step_eq : ∀ o f m, SameDue s f m → step (s.withUnseen o f m) = .next (t.withUnseen (o ++ d) (f - c) m)

/-- The case of a step that leaves stream and fuel alone. -/
theorem StepUnseen.kept {s t : State} (hout : t.out = s.out) (hfuel : t.fuel = s.fuel)
    (hstep : ∀ o f m, SameDue s f m → step (s.withUnseen o f m) = .next (t.withUnseen o f m)) :
    StepUnseen s t [] 0 where
  out := hout.trans (List.append_nil _).symm
  fuel := hfuel.symm
  step_eq o f m h := (List.append_nil o).symm ▸ hstep o f m h

theorem StepUnseen.fuel_left {s t : State} {d : List OutWord} {c : Nat} (h : StepUnseen s t d c) :
    s.fuel - c = t.fuel := Nat.sub_eq_of_eq_add h.fuel

theorem StepEffect.unseen {s t : State} (h : StepEffect s t) : ∃ d c, StepUnseen s t d c := by
  cases h with
  | rest hrest => exact ⟨[], 0, .kept rfl rfl fun _ _ _ _ => step_eq_self_of_not_running _ hrest⟩
  | halt hrun hpc => exact ⟨[], 0, .kept rfl rfl fun _ _ _ _ => step_eq_halt _ hrun hpc⟩
  | noFuel hrun hpc hfuel =>
    exact ⟨[], 0, .kept rfl rfl fun _ _ _ hsame =>
      step_eq_raise_fuelExhausted _ hrun hpc ((hsame.fuel hrun hpc).mpr hfuel)⟩
  | badPair opw opd e hrun hpc hfuel hfetch hdecode =>
    exact ⟨[], 0, .kept rfl rfl fun o _ _ hsame =>
      step_eq_raise_of_decode_error _ opw opd e hrun hpc (hsame.fuel_ne_zero hrun hpc hfuel)
        ((hsame.fetch_eq o).trans hfetch) hdecode⟩
  | exec opw opd i _ hrun hpc hfuel hfetch hdecode hexec =>
    have hstep (o f m) (hsame : SameDue s f m) : step (s.withUnseen o f m) = Machine.exec i (s.withUnseen o f m) :=
      step_eq_exec _ opw opd i hrun (hsame.fuel_ne_zero hrun hpc hfuel) ((hsame.fetch_eq o).trans hfetch) hdecode
    rcases (exec_next i s t hexec).unseen with ⟨x, rfl, heffect⟩ | ⟨d, hcommit⟩
    · exact ⟨[], 0, .kept rfl rfl fun o f m hsame => (hstep o f m hsame).trans (heffect o f m).exec_eq⟩
    · have hcharged : s.fuel = t.fuel + 1 := by
        rw [hcommit.fuel, Nat.sub_add_cancel (Nat.pos_of_ne_zero hfuel)]
      exact ⟨d, 1, hcommit.out, hcharged,
        fun o f m hsame => (hstep o f m hsame).trans (hcommit.effect o f m).exec_eq⟩

/-- Settles O34: the program is unseen away from the pair. -/
theorem stepSeesOnlyItsPair : Obligations.StepSeesOnlyItsPair := by
  intro s t m hopw hopd hstep
  obtain ⟨d, c, hunseen⟩ := (step_next s t hstep).unseen
  have hstep' := hunseen.step_eq s.out s.fuel m ⟨fun _ _ => Iff.rfl, hopw, hopd⟩
  rwa [← hunseen.out, hunseen.fuel_left] at hstep'

/-- Settles O35: the output stream is unseen. -/
theorem outputIsNeverRead : Obligations.OutputIsNeverRead := by
  intro s t o hstep
  obtain ⟨d, c, hunseen⟩ := (step_next s t hstep).unseen
  obtain ⟨hprog, _⟩ := (step_next s t hstep).program_kept
  have hstep' := hunseen.step_eq o s.fuel s.prog ⟨fun _ _ => Iff.rfl, rfl, rfl⟩
  rw [hunseen.fuel_left, ← hprog] at hstep'
  exact ⟨d, hunseen.out, hprog ▸ hstep'⟩

/-- With more fuel a step does the same and leaves that much more, unless it is the one that raises `FuelExhausted`. -/
theorem step_more_fuel (s t : State) (extra : Nat) (hstep : step s = .next t)
    (hdue : s.status = .running → s.pc < s.len → s.fuel ≠ 0) :
    step { s with fuel := s.fuel + extra } = .next { t with fuel := t.fuel + extra } := by
  obtain ⟨d, c, hunseen⟩ := (step_next s t hstep).unseen
  obtain ⟨hprog, _⟩ := (step_next s t hstep).program_kept
  have hboth (hrun : s.status = .running) (hpc : s.pc < s.len) : s.fuel + extra = 0 ↔ s.fuel = 0 := by
    have hsome := hdue hrun hpc
    omega
  have hleft : s.fuel + extra - c = t.fuel + extra := by
    have hcharged := hunseen.fuel
    omega
  have hstep' := hunseen.step_eq s.out (s.fuel + extra) s.prog ⟨hboth, rfl, rfl⟩
  rw [← hunseen.out, hleft] at hstep'
  exact hprog ▸ hstep'

/-- A run of `n + 1` steps begins with a step: the converse of `run_succ_next`. -/
theorem run_succ_eq (M : Host.Core) (n : Nat) (s u : M.State) (hstep : M.step s = .next u) :
    M.run (n + 1) s = M.run n u := by
  rw [Host.Core.run, hstep]

/-- A run whose state is not RUNNING keeps that state. -/
theorem run_of_not_running (n : Nat) (s : State) (hrest : s.status ≠ .running) :
    Host.Core.run core n s = .next s := by
  induction n with
  | zero => rfl
  | succ n ih => exact (run_succ_eq core n s s (step_eq_self_of_not_running s hrest)).trans ih

/-- A run that halts has fuel whenever an instruction is due: without it, it ends in FAULTED. -/
theorem fuel_ne_zero_of_run_halts (n : Nat) (s t : State) (hrun : Host.Core.run core (n + 1) s = .next t)
    (hhalted : t.status = .halted) (hrunning : s.status = .running) (hpc : s.pc < s.len) : s.fuel ≠ 0 := by
  intro hdry
  have hraised := run_succ_eq core n s _ (step_eq_raise_fuelExhausted s hrunning hpc hdry)
  rw [hraised, run_of_not_running n (s.raise .fuelExhausted) (by simp)] at hrun
  injection hrun with hrun
  subst hrun
  cases hhalted

/-- A run that halts does the same with `extra` more fuel, and leaves it over. -/
theorem run_more_fuel (n : Nat) (s t : State) (extra : Nat) (hrun : Host.Core.run core n s = .next t)
    (hhalted : t.status = .halted) :
    Host.Core.run core n { s with fuel := s.fuel + extra } = .next { t with fuel := t.fuel + extra } := by
  induction n generalizing s with
  | zero =>
    injection hrun with hrun
    subst hrun
    rfl
  | succ n ih =>
    obtain ⟨u, hstep, hrest⟩ := run_succ_next core n s t hrun
    have hstep' := step_more_fuel s u extra hstep (fuel_ne_zero_of_run_halts n s t hrun hhalted)
    exact (run_succ_eq core n _ _ hstep').trans (ih u hrest)

/-- Settles O36: `g` is `f` and some more. -/
theorem moreFuelSameResult : Obligations.MoreFuelSameResult := by
  intro n s t f g hle hrun hhalted
  have hmore := run_more_fuel n { s with fuel := f } t (g - f) hrun hhalted
  rwa [Nat.add_sub_cancel' hle] at hmore

end Sys2Proof.Machine
end

section
/-! SUPPORT. The invariant of spec/10_state.md R23 under reset, steps, transactions and runs, and what it gives: the
widths of R4, R14, R16, a next state for every step (70_reset_and_hazards.md R119), and the end of every run
(40_step_cycle.md R68). -/

namespace Sys2Proof.Machine

/-! ### Steps -/

/-- Fault entry ends a run wherever it is. -/
theorem State.Inv.raise {s : State} (h : s.Inv) (hrun : s.status = .running) (x : Condition) : (s.raise x).Inv :=
  { h with
    causeFaulted := by simp
    haltedAtEnd := by simp
    ranLoaded := fun _ => h.ranLoaded (by simp [hrun]) }

/-- A run that has not ended has no cause. -/
theorem State.Inv.cause_eq_none {s : State} (h : s.Inv) (hlive : s.status ≠ .faulted) : s.cause = none := by
  by_contra hcause
  exact hlive (h.causeFaulted.mp hcause)

/-- A run halts at `LEN` exactly, because `pc` is never above it. -/
theorem State.Inv.halt {s : State} (h : s.Inv) (hrun : s.status = .running) (hpc : s.len ≤ s.pc) : s.halt.Inv :=
  { h with
    causeFaulted := by simp [h.cause_eq_none (by simp [hrun] : s.status ≠ .faulted)]
    haltedAtEnd := fun _ => Nat.le_antisymm h.pcBound hpc
    ranLoaded := fun _ => h.ranLoaded (by simp [hrun]) }

/-- A commit keeps `pc` even and at most `LEN`, and gives at most one element for its unit of fuel. -/
theorem State.Inv.committed {s t : State} (h : s.Inv) (hrun : s.status = .running) (hpc : s.pc < s.len)
    (hfuel : s.fuel ≠ 0) (hcommit : Committed s t) (hprog : t.prog = s.prog) (hlen : t.len = s.len)
    (hnext : t.pc = s.pc + 2 ∨ t.pc % 2 = 0 ∧ t.pc < s.len) : t.Inv := by
  have hpcEven := h.pcEven
  have hlenEven := h.lenEven
  have hrunT : t.status = .running := hcommit.status.trans hrun
  constructor
  case progCanonical => exact hprog ▸ h.progCanonical
  case progMapped => rw [hprog, hlen]; exact h.progMapped
  case progBounded => rw [hprog, hlen]; exact h.progBounded
  case lenEven => rw [hlen]; exact hlenEven
  case pcEven => omega
  case pcBound => rw [hlen]; omega
  case outBound =>
    have hbound := h.outBound
    have hlength := hcommit.outLength
    rw [hcommit.fuelBudget, hcommit.fuel]
    omega
  case causeFaulted => rw [hcommit.cause, hcommit.status]; exact h.causeFaulted
  case haltedAtEnd => simp [hrunT]
  case ranLoaded => exact fun _ => hcommit.loaded.trans (h.ranLoaded (by simp [hrun]))

/-- Settles O38, by the cases of a step: it rests, halts, raises a condition or commits. -/
theorem stepKeepsInv : Obligations.StepKeepsInv := by
  intro s t hinv hstep
  by_cases hrun : s.status = .running
  · have heffect := step_next s t hstep
    obtain ⟨hprog, hlen⟩ := heffect.program_kept
    rcases heffect.halt_or_raise_or_committed hrun with ⟨hpc, rfl⟩ | ⟨x, rfl⟩ | ⟨hpc, hfuel, hcommit, hnext⟩
    · exact hinv.halt hrun hpc
    · exact hinv.raise hrun x
    · exact hinv.committed hrun hpc hfuel hcommit hprog hlen hnext
  · rw [step_eq_self_of_not_running s hrun] at hstep
    injection hstep with hsame
    exact hsame ▸ hinv

/-! ### Transactions -/

/-- The loader's preconditions (R24), one by one. -/
theorem loadArgsOk_iff (p : Params) (x : LoadArgs) : loadArgsOk p x = true ↔
    x.a < 2 ^ 64 ∧ x.b < 2 ^ 64 ∧ x.c < 2 ^ 64 ∧ x.words.length % 2 = 0 ∧ x.words.length ≤ lenMax p
      ∧ (∀ w ∈ x.words, w ≤ 15) ∧ x.fuel < 2 ^ p.fuelBits ∧ x.fuel ≤ p.outCap := by
  simp only [loadArgsOk, Bool.and_eq_true, decide_eq_true_eq, beq_iff_eq, List.all_eq_true, and_assoc,
    Nat.lt_succ_iff (n := 15)]

/-- A transaction changes nothing, or leaves the loaded, the started or the reset state, each under its own condition
(R24 to R28). -/
theorem transact_state_cases (p : Params) (x : Transaction) (s : State) :
    (transact p x s).state = s
      ∨ (∃ args, loadArgsOk p args = true ∧ (transact p x s).state = loadedState args)
      ∨ (s.status = .idle ∧ s.loaded = true ∧ (transact p x s).state = startedState s)
      ∨ (transact p x s).state = State.reset := by
  cases x with
  | load args =>
    rcases load_cases p args s with ⟨_, hok, hload⟩ | hrefused
    · exact .inr (.inl ⟨args, hok, congrArg HostReply.state hload⟩)
    · exact .inl (congrArg HostReply.state hrefused)
  | start =>
    rcases start_cases s with ⟨hidle, hloaded, hstart⟩ | hrefused
    · exact .inr (.inr (.inl ⟨hidle, hloaded, congrArg HostReply.state hstart⟩))
    · exact .inl (congrArg HostReply.state hrefused)
  | readback => exact .inl rfl
  | reset => exact .inr (.inr (.inr rfl))

/-- The program space after LOAD, index by index (R24, 20_memory.md R37). -/
theorem loadedState_read (x : LoadArgs) (i : Nat) :
    (loadedState x).prog.read i = (x.words[i]?).map (BitVec.ofNat 4) :=
  (Memory.read_ofWords _ i).trans List.getElem?_map

/-- Settles O37. -/
theorem resetMeetsInv : Obligations.ResetMeetsInv where
  progCanonical := State.reset_prog_wf
  progMapped i hi := absurd hi (Nat.not_lt_zero i)
  progBounded x hx := absurd hx List.not_mem_nil
  lenEven := rfl
  pcEven := rfl
  pcBound := Nat.le_refl 0
  outBound := Nat.le_refl 0
  causeFaulted := by decide
  haltedAtEnd h := nomatch h
  ranLoaded h := absurd rfl h

theorem loadedState_inv (p : Params) (x : LoadArgs) (h : loadArgsOk p x = true) : (loadedState x).Inv := by
  obtain ⟨_, _, _, heven, _⟩ := (loadArgsOk_iff p x).mp h
  constructor
  case progCanonical => exact Memory.ofWords_wf _
  case progMapped =>
    intro i hi
    rw [loadedState_read, Option.isSome_map, List.getElem?_eq_getElem hi, Option.isSome_some]
  case progBounded =>
    intro entry hentry
    simpa [loadedState] using (Memory.mem_ofWordsFrom 0 _ entry hentry).2
  case lenEven => exact heven
  case pcEven => rfl
  case pcBound => exact Nat.zero_le _
  case outBound => exact Nat.zero_le _
  case causeFaulted => exact ⟨fun h => absurd rfl h, fun h => nomatch h⟩
  case haltedAtEnd => exact fun h => nomatch h
  case ranLoaded => exact fun _ => rfl

theorem State.Inv.started {s : State} (h : s.Inv) (hloaded : s.loaded = true) : (startedState s).Inv :=
  { h with
    pcEven := rfl
    pcBound := Nat.zero_le _
    outBound := by simp
    causeFaulted := by simp
    haltedAtEnd := by simp
    ranLoaded := fun _ => hloaded }

/-- Settles O39: each of the four states a transaction can leave meets the invariant. -/
theorem transactionsKeepInv : Obligations.TransactionsKeepInv := by
  intro p x s hinv
  rcases transact_state_cases p x s with hsame | ⟨args, hok, hload⟩ | ⟨_, hloaded, hstart⟩ | hreset
  · rwa [hsame]
  · exact hload ▸ loadedState_inv p args hok
  · exact hstart ▸ hinv.started hloaded
  · exact hreset ▸ resetMeetsInv

/-- Settles O29: a resting step changes nothing, and every state a transaction can leave but the started one, which an
ended run does not reach, is the old one or begins at index 0. -/
theorem endedRunsStayEnded : Obligations.EndedRunsStayEnded := by
  refine ⟨step_eq_self_of_not_running, fun p x s hended => ?_⟩
  rcases transact_state_cases p x s with hsame | ⟨args, _, hload⟩ | ⟨hidle, _⟩ | hreset
  · exact .inl (congrArg State.status hsame)
  · exact .inr (hload ▸ ⟨rfl, rfl, rfl⟩)
  · simp [hidle] at hended
  · exact .inr (hreset ▸ ⟨rfl, rfl, rfl⟩)

/-! ### The widths of the hardware -/

/-- No step writes `FUEL`. -/
theorem StepEffect.fuelBudget_kept {s t : State} (h : StepEffect s t) : t.fuelBudget = s.fuelBudget := by
  cases h with
  | rest => rfl
  | halt => exact State.halt_fuelBudget s
  | noFuel | badPair => exact State.raise_fuelBudget s _
  | exec _ _ i _ _ _ _ _ _ hexec => exact (exec_next i s t hexec).budget_kept.1

theorem reset_fits (p : Params) : State.reset.Fits p where
  inv := resetMeetsInv
  lenFits := Nat.zero_le _
  budgetFits := Nat.two_pow_pos _
  budgetCovered := Nat.zero_le _

theorem step_keeps_fits (p : Params) (s t : State) (h : s.Fits p) (hstep : step s = .next t) : t.Fits p := by
  obtain ⟨_, hlen⟩ := (step_next s t hstep).program_kept
  have hbudget := (step_next s t hstep).fuelBudget_kept
  exact ⟨stepKeepsInv s t h.inv hstep, hlen ▸ h.lenFits, hbudget ▸ h.budgetFits, hbudget ▸ h.budgetCovered⟩

theorem transact_keeps_fits (p : Params) (x : Transaction) (s : State) (h : s.Fits p) :
    (transact p x s).state.Fits p := by
  rcases transact_state_cases p x s with hsame | ⟨args, hok, hload⟩ | ⟨_, hloaded, hstart⟩ | hreset
  · rwa [hsame]
  · obtain ⟨_, _, _, _, hlen, _, hfuel, hcovered⟩ := (loadArgsOk_iff p args).mp hok
    exact hload ▸ ⟨loadedState_inv p args hok, hlen, hfuel, hcovered⟩
  · exact hstart ▸ ⟨h.inv.started hloaded, h.lenFits, h.budgetFits, h.budgetCovered⟩
  · exact hreset ▸ reset_fits p

/-- Settles O50. -/
theorem stepAndTransactionsKeepFit : Obligations.StepAndTransactionsKeepFit := fun p s h =>
  ⟨fun t => step_keeps_fits p s t h, fun x => transact_keeps_fits p x s h⟩

theorem Reachable.fits {p : Params} {s : State} (h : Reachable p s) : s.Fits p := by
  induction h with
  | reset => exact reset_fits p
  | host x s _ ih => exact transact_keeps_fits p x s ih
  | step s t _ hstep ih => exact step_keeps_fits p s t ih hstep

/-- Settles O40: reachable states fit, and `pc` is bounded by `LEN`, fuel and output by `FUEL`. -/
theorem reachableStatesFitTheHardware : Obligations.ReachableStatesFitTheHardware := by
  intro p s hreach
  have hfits := hreach.fits
  have hinv := hfits.inv
  have hlen : s.len ≤ 2 ^ p.pcBits - 2 := hfits.lenFits
  have hpow : 2 ^ 4 ≤ 2 ^ p.pcBits := Nat.pow_le_pow_right (by decide) p.pcBits_ge
  have hpc := hinv.pcBound
  have hpcEven := hinv.pcEven
  have hlenEven := hinv.lenEven
  have hbudget := hfits.budgetFits
  have hcovered := hfits.budgetCovered
  have hout := hinv.outBound
  exact ⟨hinv, by omega, hlen, by omega, by omega, fun _ => by omega⟩

/-! ### Every run ends -/

theorem withCombo_total (k : Nibble) (s : State) (f : Word → State) : ∃ t, withCombo k s f = .next t := by
  rcases combo_cases k s with ⟨_, v, hv⟩ | ⟨_, hnone⟩
  · exact ⟨_, withCombo_some k s f v hv⟩
  · exact ⟨_, withCombo_none k s f hnone⟩

/-- No instruction stops the model. -/
theorem exec_total (i : Instr) (s : State) : ∃ t, exec i s = .next t := by
  cases i with
  | adv k | bst k | out k | bdv k | cdv k => exact withCombo_total k s _
  | bxl | bxc => exact ⟨_, rfl⟩
  | jnz lit =>
    by_cases ha : s.a = 0
    · exact ⟨_, (ExecEffect.fallThrough lit ha).exec_eq⟩
    · by_cases hbad : jumpTarget lit % 2 = 1 ∨ s.len ≤ jumpTarget lit
      · exact ⟨_, (ExecEffect.badJump lit ha hbad).exec_eq⟩
      · exact ⟨_, (ExecEffect.jump lit ha (by omega) (by omega)).exec_eq⟩

/-- Below an even `LEN` an even `pc` has both words of its pair in the program (20_memory.md R34). -/
theorem State.Inv.fetch_eq_some {s : State} (h : s.Inv) (hpc : s.pc < s.len) :
    ∃ opw opd, s.fetch = some (opw, opd) := by
  have hpcEven := h.pcEven
  have hlenEven := h.lenEven
  have hnext : s.pc + 1 < s.len := by omega
  obtain ⟨opw, hopw⟩ := Option.isSome_iff_exists.mp (h.progMapped _ hpc)
  obtain ⟨opd, hopd⟩ := Option.isSome_iff_exists.mp (h.progMapped _ hnext)
  exact ⟨opw, opd, (s.fetch_eq_some opw opd).mpr
    ⟨(s.progWord_eq_some _ opw).mpr ⟨hpc, hopw⟩, (s.progWord_eq_some _ opd).mpr ⟨hnext, hopd⟩⟩⟩

/-- Settles O41, in the order of R60: rest, halt, fuel, fetch, decode, execute. -/
theorem stepNeverStops : Obligations.StepNeverStops := by
  intro s hinv
  by_cases hrun : s.status = .running
  case neg => exact ⟨s, step_eq_self_of_not_running s hrun⟩
  by_cases hpc : s.len ≤ s.pc
  case pos => exact ⟨_, step_eq_halt s hrun hpc⟩
  have hpc : s.pc < s.len := Nat.not_le.mp hpc
  by_cases hfuel : s.fuel = 0
  case pos => exact ⟨_, step_eq_raise_fuelExhausted s hrun hpc hfuel⟩
  obtain ⟨opw, opd, hfetch⟩ := hinv.fetch_eq_some hpc
  cases hdecode : decode opw opd with
  | error e => exact ⟨_, step_eq_raise_of_decode_error s opw opd e hrun hpc hfuel hfetch hdecode⟩
  | ok i => exact step_eq_exec s opw opd i hrun hfuel hfetch hdecode ▸ exec_total i s

/-- A running step ends the run, or goes on with one unit of fuel less. -/
theorem StepEffect.ended_or_charged {s t : State} (h : StepEffect s t) (hrun : s.status = .running) :
    (t.status = .halted ∨ t.status = .faulted) ∨ t.status = .running ∧ t.fuel + 1 = s.fuel := by
  rcases h.halt_or_raise_or_committed hrun with ⟨_, rfl⟩ | ⟨x, rfl⟩ | ⟨_, hfuel, hcommit, _⟩
  · exact .inl (.inl rfl)
  · exact .inl (.inr rfl)
  · refine .inr ⟨hcommit.status.trans hrun, ?_⟩
    rw [hcommit.fuel, Nat.sub_add_cancel (Nat.pos_of_ne_zero hfuel)]

/-- By induction on the fuel: each step that does not end the run takes a unit. -/
theorem run_ends (fuel : Nat) (s : State) (hfuel : s.fuel = fuel) (hinv : s.Inv) (hrun : s.status = .running) :
    ∃ t : State, Host.Core.run core (fuel + 1) s = .next t ∧ (t.status = .halted ∨ t.status = .faulted) := by
  induction fuel generalizing s with
  | zero =>
    obtain ⟨u, hstep⟩ := stepNeverStops s hinv
    rcases (step_next s u hstep).ended_or_charged hrun with hended | ⟨_, hcharged⟩
    · exact ⟨u, run_succ_eq core 0 s u hstep, hended⟩
    · omega
  | succ fuel ih =>
    obtain ⟨u, hstep⟩ := stepNeverStops s hinv
    have hfirst := run_succ_eq core (fuel + 1) s u hstep
    rcases (step_next s u hstep).ended_or_charged hrun with hended | ⟨hrunU, hcharged⟩
    · have hrest : u.status ≠ .running := by rcases hended with h | h <;> simp [h]
      exact ⟨u, hfirst.trans (run_of_not_running _ u hrest), hended⟩
    · obtain ⟨t, hrunT, hended⟩ := ih u (by omega) (stepKeepsInv s u hinv hstep) hrunU
      exact ⟨t, hfirst.trans hrunT, hended⟩

/-- Settles O42. -/
theorem runEndsWithinFuel : Obligations.RunEndsWithinFuel := fun s => run_ends s.fuel s rfl

end Sys2Proof.Machine
end

section
/-! SUPPORT. Well-formed programs (spec/92_eei_decisions.md D31): every pair due at an even index decodes, and its
`Jnz` has a legal target, so lack of fuel is the only condition left. -/

namespace Sys2Proof

/-- The pair at an even index of a well-formed program is well-formed. -/
theorem pairWellFormed_of_pairsWellFormed (len : Nat) (words : List Nibble) (h : pairsWellFormed len words = true)
    (i : Nat) (heven : i % 2 = 0) (opw opd : Nibble) (hopw : words[i]? = some opw) (hopd : words[i + 1]? = some opd) :
    pairWellFormed len opw opd = true := by
  induction words using pairsWellFormed.induct generalizing i with
  | case1 => cases hopw
  | case2 w => cases h
  | case3 w v rest ih =>
    obtain ⟨hpair, hrest⟩ : pairWellFormed len w v = true ∧ pairsWellFormed len rest = true := by
      simpa only [pairsWellFormed, Bool.and_eq_true] using h
    match i with
    | 0 =>
      obtain rfl := Option.some.inj hopw
      obtain rfl := Option.some.inj hopd
      exact hpair
    | 1 => cases heven
    | j + 2 => exact ih hrest j (by omega) hopw hopd

theorem comboOpcode_iff (opw : Nibble) : comboOpcode opw = true ↔ opw.toNat ∈ [0, 2, 5, 6, 7] :=
  List.contains_iff_mem

/-- A well-formed pair decodes, and as a `Jnz` it has a legal target (D31). -/
theorem pairWellFormed_spec (len : Nat) (opw opd : Nibble) (h : pairWellFormed len opw opd = true) :
    opw.toNat ≤ 7 ∧ (opw.toNat ∈ [0, 2, 5, 6, 7] → opd.toNat ≤ 6)
      ∧ (opw.toNat = 3 → opd.toNat % 2 = 0 ∧ opd.toNat < len) := by
  simp only [pairWellFormed, comboCodeOk, Bool.and_eq_true, Bool.or_eq_true, Bool.not_eq_true',
    ← Bool.not_eq_true, comboOpcode_iff, decide_eq_true_eq, bne_iff_ne, beq_iff_eq] at h
  obtain ⟨⟨⟨hopw, _⟩, hcombo⟩, hjump⟩ := h
  exact ⟨hopw, fun hmem => hcombo.resolve_left (not_not_intro hmem),
    fun hjnz => hjump.resolve_left (not_not_intro hjnz)⟩

end Sys2Proof

namespace Sys2Proof.Machine

/-- A state of a run of the program `words`, from an even index: the invariant behind
`WellFormedProgramsOnlyRunOutOfFuel`. -/
structure RunsWords (words : List Nibble) (s : State) : Prop where
  prog : s.prog = Memory.ofWords words
  len : s.len = words.length
  pcEven : s.pc % 2 = 0
  cause : s.status = .faulted → s.cause = some .fuelExhausted

/-- What such a state fetches is a well-formed pair. -/
theorem RunsWords.pairWellFormed_of_fetch {words : List Nibble} {s : State} (h : RunsWords words s)
    (hwords : programWellFormed words = true) (opw opd : Nibble) (hfetch : s.fetch = some (opw, opd)) :
    pairWellFormed s.len opw opd = true := by
  obtain ⟨hopw, hopd⟩ := (s.fetch_eq_some opw opd).mp hfetch
  obtain ⟨_, hopw⟩ := (s.progWord_eq_some _ opw).mp hopw
  obtain ⟨_, hopd⟩ := (s.progWord_eq_some _ opd).mp hopd
  rw [h.prog, Memory.read_ofWords] at hopw hopd
  rw [h.len]
  exact pairWellFormed_of_pairsWellFormed _ words hwords s.pc h.pcEven opw opd hopw hopd

/-- So of the reasons to raise a condition only the lack of fuel is left. -/
theorem RunsWords.eq_fuelExhausted {words : List Nibble} {s : State} (h : RunsWords words s)
    (hwords : programWellFormed words = true) {x : Condition} (hraised : RaisedBy s x) : x = .fuelExhausted := by
  cases hraised with
  | noFuel => rfl
  | badOpcode opw opd _ _ hfetch hdecode =>
    obtain ⟨hlegal, _⟩ := pairWellFormed_spec _ _ _ (h.pairWellFormed_of_fetch hwords opw opd hfetch)
    exact absurd hlegal (Nat.not_le.mpr ((decode_eq_invalidOpcode_iff opw opd).mp hdecode))
  | badCombo opw opd _ _ hfetch hdecode =>
    obtain ⟨_, hcode, _⟩ := pairWellFormed_spec _ _ _ (h.pairWellFormed_of_fetch hwords opw opd hfetch)
    obtain ⟨hcombo, hbad⟩ := (decode_eq_invalidCombo_iff opw opd).mp hdecode
    exact absurd (hcode hcombo) (Nat.not_le.mpr hbad)
  | badJump lit _ hfetch _ hbad =>
    obtain ⟨_, _, hjump⟩ := pairWellFormed_spec _ _ _ (h.pairWellFormed_of_fetch hwords 3 lit hfetch)
    obtain ⟨heven, hlt⟩ := hjump rfl
    omega

theorem step_keeps_runsWords (words : List Nibble) (hwords : programWellFormed words = true) (s t : State)
    (hstep : step s = .next t) (h : RunsWords words s) : RunsWords words t := by
  by_cases hrun : s.status = .running
  case neg =>
    rw [step_eq_self_of_not_running s hrun] at hstep
    injection hstep with hsame
    exact hsame ▸ h
  have heffect := step_next s t hstep
  obtain ⟨hprog, hlen⟩ := heffect.program_kept
  refine ⟨hprog.trans h.prog, hlen.trans h.len, ?_, fun hfaulted => ?_⟩
  · have hpcEven := h.pcEven
    rcases heffect.halt_or_raise_or_committed hrun with ⟨_, rfl⟩ | ⟨x, rfl⟩ | ⟨_, _, _, hfell | ⟨hjumped, _⟩⟩
    · exact hpcEven
    · exact hpcEven
    · omega
    · exact hjumped
  · obtain ⟨x, rfl⟩ := heffect.eq_raise_of_faulted hrun hfaulted
    exact congrArg some (h.eq_fuelExhausted hwords (heffect.raisedBy hrun rfl rfl))

/-- Settles O43: a run keeps `RunsWords`, by `run_keeps`. -/
theorem wellFormedProgramsOnlyRunOutOfFuel : Obligations.WellFormedProgramsOnlyRunOutOfFuel := by
  intro n words s t hwords hprog hlen hpcEven hrunning hrun
  have hstart : RunsWords words s := ⟨hprog, hlen, hpcEven, by simp [hrunning]⟩
  exact (run_keeps (RunsWords words) (step_keeps_runsWords words hwords) n s t hstart hrun).cause

end Sys2Proof.Machine
end

section
/-! SUPPORT. The host's transactions and the result of a run (spec/10_state.md R22 to R28, 40_step_cycle.md R69,
60_exceptions.md R97). -/

namespace Sys2Proof.Machine

/-- Settles O44: the values of `State.reset`, which START refuses because nothing is loaded. -/
theorem resetValues : Obligations.ResetValues :=
  ⟨⟨rfl, rfl, rfl, rfl, rfl, rfl⟩, fun _ _ => ⟨rfl, rfl, rfl, rfl, rfl, rfl, rfl⟩⟩

/-- The words of the program as LOAD took them. -/
theorem loadedState_progWord_toNat (p : Params) (x : LoadArgs) (h : loadArgsOk p x = true) (i w : Nat)
    (hword : x.words[i]? = some w) : ∃ q, (loadedState x).progWord i = some q ∧ q.toNat = w :=
  ⟨BitVec.ofNat 4 w, loadedState_progWord x i w hword, (BitVec.toNat_ofNat w 4).trans
    (Nat.mod_eq_of_lt (loadArgsOk_word_lt p x w h (List.mem_of_getElem? hword)))⟩

/-- Settles O45: the two branches of `load`. -/
theorem loadEffect : Obligations.LoadEffect := by
  intro p x s
  have hcondition := and_congr_right (a := s.status ≠ .running) fun _ => loadArgsOk_iff p x
  split
  case isTrue hgood =>
    obtain ⟨hstatus, hok⟩ := hcondition.mpr hgood
    have hload : transact p (.load x) s = { accepted := true, state := loadedState x } := if_pos ⟨hstatus, hok⟩
    obtain ⟨ha, hb, hc⟩ := loadedState_registers p x hok
    rw [hload]
    exact ⟨rfl, loadedState x, rfl, ha, hb, hc, loadedState_progWord_toNat p x hok,
      fun i hi => if_neg (Nat.not_lt.mpr hi), Memory.ofWords_wf _, rfl, rfl, rfl, rfl, rfl, rfl, rfl, rfl⟩
  case isFalse hbad =>
    have hload : transact p (.load x) s = refuse s := if_neg (mt hcondition.mp hbad)
    rw [hload]
    exact ⟨rfl, rfl⟩

/-- Settles O46: the two branches of `start`. -/
theorem startEffect : Obligations.StartEffect := by
  intro p s
  refine ⟨fun hidle hloaded => if_pos ⟨hidle, hloaded⟩, fun hbad => if_neg fun ⟨hidle, hloaded⟩ => ?_⟩
  rcases hbad with hstatus | hnone
  · exact hstatus hidle
  · simp [hloaded] at hnone

/-- The status a code stands for (R18). -/
def statusOfCode (w : BitVec 2) : Status :=
  if w = 0 then .idle else if w = 1 then .running else if w = 2 then .halted else .faulted

theorem statusOfCode_statusCode (x : Status) : statusOfCode (statusCode x) = x := by
  cases x <;> rfl

/-- The codes of `STATUS` tell its values apart. -/
theorem statusCode_eq_iff (x y : Status) : statusCode x = statusCode y ↔ x = y :=
  (Function.LeftInverse.injective statusOfCode_statusCode).eq_iff

/-- The cause a code stands for; those never produced are read as 4 (R19). -/
def causeOfCode (w : BitVec 3) : Option Condition :=
  if w = 0 then none
  else if w = 1 then some .invalidOpcode
  else if w = 2 then some .invalidCombo
  else if w = 3 then some .jumpOutOfRange
  else some .fuelExhausted

theorem causeOfCode_causeCode (x : Option Condition) : causeOfCode (causeCode x) = x := by
  cases x with
  | none => rfl
  | some x => cases x <;> rfl

/-- The codes of `CAUSE` tell its values apart. -/
theorem causeCode_eq_iff (x y : Option Condition) : causeCode x = causeCode y ↔ x = y :=
  (Function.LeftInverse.injective causeOfCode_causeCode).eq_iff

/-- Settles O47: the fields of the answer, with its codes read back. -/
theorem readbackReturnsTheState : Obligations.ReadbackReturnsTheState := by
  intro p s
  refine ⟨rfl, fun hrun => if_pos hrun, fun hrest => ⟨_, if_neg hrest, rfl, rfl, rfl, rfl,
    statusCode_eq_iff _ .idle, statusCode_eq_iff _ .halted, statusCode_eq_iff _ .faulted,
    causeCode_eq_iff _ none, causeCode_eq_iff _ (some .invalidOpcode), causeCode_eq_iff _ (some .invalidCombo),
    causeCode_eq_iff _ (some .jumpOutOfRange), causeCode_eq_iff _ (some .fuelExhausted),
    fun hloaded => ?_, fun hnone => ?_⟩⟩
  · simp [readbackReg, hloaded]
  · simp [readbackReg, hnone]

/-- Settles O49: the branches of `runResult`; a faulted state has a cause by R19's clause of the invariant. -/
theorem runResults : Obligations.RunResults := by
  intro s hinv
  refine ⟨fun hhalted => ?_, fun hfaulted => ?_, fun hunended => ?_⟩
  · simp [runResult, hhalted]
  · obtain ⟨x, hx⟩ := Option.ne_none_iff_exists'.mp (hinv.causeFaulted.mpr hfaulted)
    exact ⟨x, hx, by simp [runResult, hfaulted, hx]⟩
  · rcases hunended with hstatus | hstatus <;> simp [runResult, hstatus]

end Sys2Proof.Machine
end
